-- ==== Sys2Proof/Word.lean ====
section
/-! DEFINITION. The word types of the CORE and nothing else.
Widths: spec/00_scope.md R10 (parameters), spec/10_state.md R30, R34, R35, spec/30_encoding.md R101. -/

namespace Sys2Proof

/-- One byte: a V register, a memory location, a timer, an `NN` immediate (R30, R70, R42, R101). -/
abbrev Byte := BitVec 8

/-- A 16-bit word: I, the program counter, a stack entry, an opcode (R34, R35, R39, R100). -/
abbrev Word := BitVec 16

/-- A 4-bit field of an opcode: a register number X or Y, or the count N (R101). -/
abbrev Nibble := BitVec 4

end Sys2Proof
end

