-- ==== Sys2Proof/Syntax.lean ====
section
/-! DEFINITION. The 39 instructions of spec/opcode_table.json, one constructor per row.
Operands: X and Y are register numbers, NN a byte, N a count of 4 bits; an address NNN stands as the 16-bit word
that the machine uses, zero-extended by the decoder (spec/30_encoding.md R101 to R104).
Sys2Proof/WellFormed.lean says which addresses an encoding can hold. -/

namespace Sys2Proof

inductive Instr where
  /-- 00E0 CLS (R248) -/
  | cls
  /-- 00EE RET (R150) -/
  | ret
  /-- 00CN SCD nibble (R251) -/
  | scd (n : Nibble)
  /-- 00FE LOW (R252) -/
  | low
  /-- 00FF HIGH (R253) -/
  | high
  /-- 1NNN JP addr (R151) -/
  | jp (nnn : Word)
  /-- 2NNN CALL addr (R152) -/
  | call (nnn : Word)
  /-- 3XNN SE Vx, byte (R154) -/
  | seImm (x : Nibble) (nn : Byte)
  /-- 4XNN SNE Vx, byte (R155) -/
  | sneImm (x : Nibble) (nn : Byte)
  /-- 5XY0 SE Vx, Vy (R156) -/
  | seReg (x y : Nibble)
  /-- 6XNN LD Vx, byte (R180) -/
  | ldImm (x : Nibble) (nn : Byte)
  /-- 7XNN ADD Vx, byte (R181) -/
  | addImm (x : Nibble) (nn : Byte)
  /-- 8XY0 LD Vx, Vy (R182) -/
  | ldReg (x y : Nibble)
  /-- 8XY1 OR Vx, Vy (R183) -/
  | or (x y : Nibble)
  /-- 8XY2 AND Vx, Vy (R184) -/
  | and (x y : Nibble)
  /-- 8XY3 XOR Vx, Vy (R185) -/
  | xor (x y : Nibble)
  /-- 8XY4 ADD Vx, Vy (R186) -/
  | addReg (x y : Nibble)
  /-- 8XY5 SUB Vx, Vy (R187) -/
  | sub (x y : Nibble)
  /-- 8XY6 SHR Vx, Vy (R192) -/
  | shr (x y : Nibble)
  /-- 8XY7 SUBN Vx, Vy (R193) -/
  | subn (x y : Nibble)
  /-- 8XYE SHL Vx, Vy (R194) -/
  | shl (x y : Nibble)
  /-- 9XY0 SNE Vx, Vy (R157) -/
  | sneReg (x y : Nibble)
  /-- ANNN LD I, addr (R210) -/
  | ldI (nnn : Word)
  /-- BNNN JP V0, addr (R153) -/
  | jpV0 (nnn : Word)
  /-- CXNN RND Vx, byte (R195) -/
  | rnd (x : Nibble) (nn : Byte)
  /-- DXYN DRW Vx, Vy, nibble (R249) -/
  | drw (x y n : Nibble)
  /-- EX9E SKP Vx (R280) -/
  | skp (x : Nibble)
  /-- EXA1 SKNP Vx (R281) -/
  | sknp (x : Nibble)
  /-- FX07 LD Vx, DT (R284) -/
  | ldVxDt (x : Nibble)
  /-- FX0A LD Vx, K (R282, R283) -/
  | ldVxK (x : Nibble)
  /-- FX15 LD DT, Vx (R285) -/
  | ldDtVx (x : Nibble)
  /-- FX18 LD ST, Vx (R286) -/
  | ldStVx (x : Nibble)
  /-- FX1E ADD I, Vx (R211) -/
  | addIVx (x : Nibble)
  /-- FX29 LD F, Vx (R212) -/
  | ldFVx (x : Nibble)
  /-- FX33 LD B, Vx (R213) -/
  | ldBVx (x : Nibble)
  /-- FX55 LD [I], Vx (R216) -/
  | ldMemVx (x : Nibble)
  /-- FX65 LD Vx, [I] (R217) -/
  | ldVxMem (x : Nibble)
  /-- FX75 LD R, Vx (R218) -/
  | ldRVx (x : Nibble)
  /-- FX85 LD Vx, R (R219) -/
  | ldVxR (x : Nibble)
  deriving DecidableEq, Repr

end Sys2Proof
end

