-- ==== Sys2Proof/WellFormed.lean ====
section
/-! DEFINITION. Which instructions an opcode can hold.
Every register number, byte and count of `Instr` fits its field by its type, and all of their values are legal
(spec/30_encoding.md R104). The one check left is that an address fits the 12 bits of NNN (R101, R103). -/

namespace Sys2Proof

/-- An address that NNN can hold: 0x000 to 0xFFF (spec/30_encoding.md R101, R114). -/
abbrev addressFits (a : Word) : Prop := a ≤ 0xFFF#16

/-- An instruction some opcode encodes: the address of format ADDR fits 12 bits (R102). -/
def Instr.wf : Instr → Bool
  | .jp a => decide (addressFits a)
  | .call a => decide (addressFits a)
  | .ldI a => decide (addressFits a)
  | .jpV0 a => decide (addressFits a)
  | .cls | .ret | .scd _ | .low | .high
  | .seImm _ _ | .sneImm _ _ | .seReg _ _ | .sneReg _ _
  | .ldImm _ _ | .addImm _ _ | .ldReg _ _ | .or _ _ | .and _ _ | .xor _ _
  | .addReg _ _ | .sub _ _ | .shr _ _ | .subn _ _ | .shl _ _ | .rnd _ _
  | .drw _ _ _ | .skp _ | .sknp _ | .ldVxDt _ | .ldVxK _ | .ldDtVx _ | .ldStVx _
  | .addIVx _ | .ldFVx _ | .ldBVx _ | .ldMemVx _ | .ldVxMem _ | .ldRVx _ | .ldVxR _ => true

end Sys2Proof
end

