-- ==== Sys2Proof/Decode.lean ====
section
/-! DEFINITION. The decoder, total on any bytes and rejecting by name, and after it the encoder and the rows of
spec/opcode_table.json (spec/30_encoding.md R100 to R113). -/

namespace Sys2Proof

/-- Why bytes are no instruction. -/
inductive DecodeError where
  /-- Fewer than two bytes: no opcode is shorter than 16 bits (R100). -/
  | truncated
  /-- The word is none of the 39 instructions (R110). -/
  | illegal (op : Word)
  deriving DecidableEq, Repr

/-! ### The fields of an opcode word (R101) -/

def opMajor (op : Word) : Nibble := op.extractLsb' 12 4
def opX (op : Word) : Nibble := op.extractLsb' 8 4
def opY (op : Word) : Nibble := op.extractLsb' 4 4
def opN (op : Word) : Nibble := op.extractLsb' 0 4
def opNN (op : Word) : Byte := op.extractLsb' 0 8

/-- NNN, zero-extended to 16 bits as it is used (R103). -/
def opNNN (op : Word) : Word := (op.extractLsb' 0 12).setWidth 16

/-! ### The groups of the opcode map -/

/-- The 0-group, by the full word (R106, R108). -/
def decodeGroup0 (op : Word) : Except DecodeError Instr :=
  if op.extractLsb' 4 12 = 0x00C#12 then .ok (.scd (opN op))
  else if op = 0x00E0#16 then .ok .cls
  else if op = 0x00EE#16 then .ok .ret
  else if op = 0x00FE#16 then .ok .low
  else if op = 0x00FF#16 then .ok .high
  else .error (.illegal op)

/-- 5XY0 and 9XY0: only N = 0 is legal (R105, R110). -/
def decodeXY0 (op : Word) (i : Nibble → Nibble → Instr) : Except DecodeError Instr :=
  if opN op = 0 then .ok (i (opX op) (opY op)) else .error (.illegal op)

/-- The 8-group, by N (R107). -/
def decodeGroup8 (op : Word) : Except DecodeError Instr :=
  match (opN op).toNat with
  | 0x0 => .ok (.ldReg (opX op) (opY op))
  | 0x1 => .ok (.or (opX op) (opY op))
  | 0x2 => .ok (.and (opX op) (opY op))
  | 0x3 => .ok (.xor (opX op) (opY op))
  | 0x4 => .ok (.addReg (opX op) (opY op))
  | 0x5 => .ok (.sub (opX op) (opY op))
  | 0x6 => .ok (.shr (opX op) (opY op))
  | 0x7 => .ok (.subn (opX op) (opY op))
  | 0xE => .ok (.shl (opX op) (opY op))
  | _ => .error (.illegal op)

/-- The E-group, by NN (R109). -/
def decodeGroupE (op : Word) : Except DecodeError Instr :=
  match (opNN op).toNat with
  | 0x9E => .ok (.skp (opX op))
  | 0xA1 => .ok (.sknp (opX op))
  | _ => .error (.illegal op)

/-- The F-group, by NN (R109). -/
def decodeGroupF (op : Word) : Except DecodeError Instr :=
  match (opNN op).toNat with
  | 0x07 => .ok (.ldVxDt (opX op))
  | 0x0A => .ok (.ldVxK (opX op))
  | 0x15 => .ok (.ldDtVx (opX op))
  | 0x18 => .ok (.ldStVx (opX op))
  | 0x1E => .ok (.addIVx (opX op))
  | 0x29 => .ok (.ldFVx (opX op))
  | 0x33 => .ok (.ldBVx (opX op))
  | 0x55 => .ok (.ldMemVx (opX op))
  | 0x65 => .ok (.ldVxMem (opX op))
  | 0x75 => .ok (.ldRVx (opX op))
  | 0x85 => .ok (.ldVxR (opX op))
  | _ => .error (.illegal op)

/-- The instruction an opcode word is, or its rejection: dispatch on the first hex digit (R105, R134).
No mode and no configuration changes it (R112). -/
def decode (op : Word) : Except DecodeError Instr :=
  match (opMajor op).toNat with
  | 0x0 => decodeGroup0 op
  | 0x1 => .ok (.jp (opNNN op))
  | 0x2 => .ok (.call (opNNN op))
  | 0x3 => .ok (.seImm (opX op) (opNN op))
  | 0x4 => .ok (.sneImm (opX op) (opNN op))
  | 0x5 => decodeXY0 op .seReg
  | 0x6 => .ok (.ldImm (opX op) (opNN op))
  | 0x7 => .ok (.addImm (opX op) (opNN op))
  | 0x8 => decodeGroup8 op
  | 0x9 => decodeXY0 op .sneReg
  | 0xA => .ok (.ldI (opNNN op))
  | 0xB => .ok (.jpV0 (opNNN op))
  | 0xC => .ok (.rnd (opX op) (opNN op))
  | 0xD => .ok (.drw (opX op) (opY op) (opN op))
  | 0xE => decodeGroupE op
  | 0xF => decodeGroupF op
  | _ => .error (.illegal op)

/-- The opcode word of two bytes, the byte at the lower address high (spec/20_memory.md R75). -/
def wordOfBytes (hi lo : Byte) : Word := hi ++ lo

/-- The two bytes of an opcode word, in address order (R75). -/
def bytesOfWord (op : Word) : List Byte := [op.extractLsb' 8 8, op.extractLsb' 0 8]

/-- Decode the first instruction of a byte sequence and give the bytes after it (R100). -/
def decodeBytes : List Byte → Except DecodeError (Instr × List Byte)
  | hi :: lo :: rest =>
    match decode (wordOfBytes hi lo) with
    | .ok i => .ok (i, rest)
    | .error e => .error e
  | _ => .error .truncated

/-- What the decoder reads from the table's word `w` of `nbits` bits: its bytes as the hardware stores them,
big-endian. -/
def decodeTableWord (nbits w : Nat) : Option Instr :=
  match decodeBytes (bytesOfWord (BitVec.ofNat 16 (w % 2 ^ nbits))) with
  | .ok (i, _) => some i
  | .error _ => none

/-! ### The encoder, from the formats of R102 -/

/-- Format ADDR, `oooonnnnnnnnnnnn`. -/
def encodeAddr (op1 : Nibble) (nnn : Word) : Word := op1 ++ nnn.extractLsb' 0 12

/-- Format XNN, `ooooxxxxnnnnnnnn`; also format X, whose NN is a minor opcode. -/
def encodeXNN (op1 x : Nibble) (nn : Byte) : Word := op1 ++ x ++ nn

/-- Format XYN, `ooooxxxxyyyynnnn`; also format XY, whose N is a minor opcode. -/
def encodeXYN (op1 x y n : Nibble) : Word := op1 ++ x ++ y ++ n

/-- The opcode word of a well-formed instruction. -/
def encode : Instr → Word
  | .cls => 0x00E0#16
  | .ret => 0x00EE#16
  | .scd n => 0x00C#12 ++ n
  | .low => 0x00FE#16
  | .high => 0x00FF#16
  | .jp nnn => encodeAddr 0x1#4 nnn
  | .call nnn => encodeAddr 0x2#4 nnn
  | .seImm x nn => encodeXNN 0x3#4 x nn
  | .sneImm x nn => encodeXNN 0x4#4 x nn
  | .seReg x y => encodeXYN 0x5#4 x y 0x0#4
  | .ldImm x nn => encodeXNN 0x6#4 x nn
  | .addImm x nn => encodeXNN 0x7#4 x nn
  | .ldReg x y => encodeXYN 0x8#4 x y 0x0#4
  | .or x y => encodeXYN 0x8#4 x y 0x1#4
  | .and x y => encodeXYN 0x8#4 x y 0x2#4
  | .xor x y => encodeXYN 0x8#4 x y 0x3#4
  | .addReg x y => encodeXYN 0x8#4 x y 0x4#4
  | .sub x y => encodeXYN 0x8#4 x y 0x5#4
  | .shr x y => encodeXYN 0x8#4 x y 0x6#4
  | .subn x y => encodeXYN 0x8#4 x y 0x7#4
  | .shl x y => encodeXYN 0x8#4 x y 0xE#4
  | .sneReg x y => encodeXYN 0x9#4 x y 0x0#4
  | .ldI nnn => encodeAddr 0xA#4 nnn
  | .jpV0 nnn => encodeAddr 0xB#4 nnn
  | .rnd x nn => encodeXNN 0xC#4 x nn
  | .drw x y n => encodeXYN 0xD#4 x y n
  | .skp x => encodeXNN 0xE#4 x 0x9E#8
  | .sknp x => encodeXNN 0xE#4 x 0xA1#8
  | .ldVxDt x => encodeXNN 0xF#4 x 0x07#8
  | .ldVxK x => encodeXNN 0xF#4 x 0x0A#8
  | .ldDtVx x => encodeXNN 0xF#4 x 0x15#8
  | .ldStVx x => encodeXNN 0xF#4 x 0x18#8
  | .addIVx x => encodeXNN 0xF#4 x 0x1E#8
  | .ldFVx x => encodeXNN 0xF#4 x 0x29#8
  | .ldBVx x => encodeXNN 0xF#4 x 0x33#8
  | .ldMemVx x => encodeXNN 0xF#4 x 0x55#8
  | .ldVxMem x => encodeXNN 0xF#4 x 0x65#8
  | .ldRVx x => encodeXNN 0xF#4 x 0x75#8
  | .ldVxR x => encodeXNN 0xF#4 x 0x85#8

/-! ### The rows of the opcode table -/

/-- One row of spec/opcode_table.json. -/
structure OpcodeRow where
  mnemonic : String
  mask : Word
  value : Word
  deriving DecidableEq, Repr

/-- The row selects the words whose bits under `mask` are `value` (R134). -/
def OpcodeRow.selects (r : OpcodeRow) (op : Word) : Bool := op &&& r.mask == r.value

/-- The row of the table an instruction belongs to. -/
def Instr.row : Instr → OpcodeRow
  | .cls => ⟨"CLS", 0xFFFF#16, 0x00E0#16⟩
  | .ret => ⟨"RET", 0xFFFF#16, 0x00EE#16⟩
  | .scd _ => ⟨"SCD", 0xFFF0#16, 0x00C0#16⟩
  | .low => ⟨"LOW", 0xFFFF#16, 0x00FE#16⟩
  | .high => ⟨"HIGH", 0xFFFF#16, 0x00FF#16⟩
  | .jp _ => ⟨"JP", 0xF000#16, 0x1000#16⟩
  | .call _ => ⟨"CALL", 0xF000#16, 0x2000#16⟩
  | .seImm _ _ => ⟨"SE_IMM", 0xF000#16, 0x3000#16⟩
  | .sneImm _ _ => ⟨"SNE_IMM", 0xF000#16, 0x4000#16⟩
  | .seReg _ _ => ⟨"SE_REG", 0xF00F#16, 0x5000#16⟩
  | .ldImm _ _ => ⟨"LD_IMM", 0xF000#16, 0x6000#16⟩
  | .addImm _ _ => ⟨"ADD_IMM", 0xF000#16, 0x7000#16⟩
  | .ldReg _ _ => ⟨"LD_REG", 0xF00F#16, 0x8000#16⟩
  | .or _ _ => ⟨"OR", 0xF00F#16, 0x8001#16⟩
  | .and _ _ => ⟨"AND", 0xF00F#16, 0x8002#16⟩
  | .xor _ _ => ⟨"XOR", 0xF00F#16, 0x8003#16⟩
  | .addReg _ _ => ⟨"ADD_REG", 0xF00F#16, 0x8004#16⟩
  | .sub _ _ => ⟨"SUB", 0xF00F#16, 0x8005#16⟩
  | .shr _ _ => ⟨"SHR", 0xF00F#16, 0x8006#16⟩
  | .subn _ _ => ⟨"SUBN", 0xF00F#16, 0x8007#16⟩
  | .shl _ _ => ⟨"SHL", 0xF00F#16, 0x800E#16⟩
  | .sneReg _ _ => ⟨"SNE_REG", 0xF00F#16, 0x9000#16⟩
  | .ldI _ => ⟨"LD_I", 0xF000#16, 0xA000#16⟩
  | .jpV0 _ => ⟨"JP_V0", 0xF000#16, 0xB000#16⟩
  | .rnd _ _ => ⟨"RND", 0xF000#16, 0xC000#16⟩
  | .drw _ _ _ => ⟨"DRW", 0xF000#16, 0xD000#16⟩
  | .skp _ => ⟨"SKP", 0xF0FF#16, 0xE09E#16⟩
  | .sknp _ => ⟨"SKNP", 0xF0FF#16, 0xE0A1#16⟩
  | .ldVxDt _ => ⟨"LD_VX_DT", 0xF0FF#16, 0xF007#16⟩
  | .ldVxK _ => ⟨"LD_VX_K", 0xF0FF#16, 0xF00A#16⟩
  | .ldDtVx _ => ⟨"LD_DT_VX", 0xF0FF#16, 0xF015#16⟩
  | .ldStVx _ => ⟨"LD_ST_VX", 0xF0FF#16, 0xF018#16⟩
  | .addIVx _ => ⟨"ADD_I_VX", 0xF0FF#16, 0xF01E#16⟩
  | .ldFVx _ => ⟨"LD_F_VX", 0xF0FF#16, 0xF029#16⟩
  | .ldBVx _ => ⟨"LD_B_VX", 0xF0FF#16, 0xF033#16⟩
  | .ldMemVx _ => ⟨"LD_MEM_VX", 0xF0FF#16, 0xF055#16⟩
  | .ldVxMem _ => ⟨"LD_VX_MEM", 0xF0FF#16, 0xF065#16⟩
  | .ldRVx _ => ⟨"LD_R_VX", 0xF0FF#16, 0xF075#16⟩
  | .ldVxR _ => ⟨"LD_VX_R", 0xF0FF#16, 0xF085#16⟩

/-- The rows of some instructions. -/
def rowsOf (instrs : List Instr) : List OpcodeRow := instrs.map Instr.row

/-- The 39 rows in the table's order, each taken from one instruction of the row. -/
def opcodeTable : List OpcodeRow :=
  rowsOf [.cls, .ret, .scd 0, .low, .high, .jp 0, .call 0, .seImm 0 0, .sneImm 0 0, .seReg 0 0, .ldImm 0 0,
    .addImm 0 0, .ldReg 0 0] ++
  rowsOf [.or 0 0, .and 0 0, .xor 0 0, .addReg 0 0, .sub 0 0, .shr 0 0, .subn 0 0, .shl 0 0, .sneReg 0 0,
    .ldI 0, .jpV0 0, .rnd 0 0, .drw 0 0 0] ++
  rowsOf [.skp 0, .sknp 0, .ldVxDt 0, .ldVxK 0, .ldDtVx 0, .ldStVx 0, .addIVx 0, .ldFVx 0, .ldBVx 0,
    .ldMemVx 0, .ldVxMem 0, .ldRVx 0, .ldVxR 0]

end Sys2Proof
end

