-- ==== Sys2Proof/Config.lean ====
section
/-! DEFINITION. What is fixed for a run: the parameters of spec/00_scope.md R10, the configuration record of R11,
and the free inputs ("draws") of R12 that a step takes, as constants with no value given. -/

namespace Sys2Proof

/-- `MEM_SIZE`, also the lowest address that does not exist (spec/00_scope.md R10). -/
abbrev memSize : Nat := 0x1000

/-- `PROGRAM_BASE`, where a program is loaded and where execution starts (R10, spec/20_memory.md R85). -/
abbrev programBase : Nat := 0x200

/-- `FONT_SIZE`: the font fills 0x000 to 0x04F (R10, spec/20_memory.md R86). -/
abbrev fontSize : Nat := 80

/-- The longest ROM image that fits, `0xFFF - 0x200 + 1` (spec/70_reset_and_hazards.md R331, R337). -/
abbrev maxRomSize : Nat := 3584

/-- `STACK_DEPTH` (R10). -/
abbrev stackDepth : Nat := 16

/-- The display mode (spec/10_state.md R44). -/
inductive Mode where
  | base
  | extended
  deriving DecidableEq, Repr

/-- The width W of the active grid (spec/44_display.md R240). -/
def Mode.width : Mode → Nat
  | .base => 64
  | .extended => 128

/-- The height H of the active grid (R240). -/
def Mode.height : Mode → Nat
  | .base => 32
  | .extended => 64

/-- The framebuffer's pixels, row-major: bit x of row y is pixel (x, y) (R240).
DESIGN CHOICE (log 14, safe): one size holds both grids, and the active grid is its upper left part. -/
abbrev Grid := Vector (BitVec 128) 64

/-- The configuration of a run: the three options of spec/00_scope.md R11 and the font of R12.
No transition writes it (spec/70_reset_and_hazards.md R338). -/
structure Cfg where
  /-- `shift_uses_vy`: 8XY6 and 8XYE shift VY into VX if true, VX in place if false. -/
  shiftUsesVy : Bool
  /-- `load_store_increments_i`: FX55 and FX65 leave I + X + 1 in I if true, I unchanged if false. -/
  loadStoreIncrementsI : Bool
  /-- `extended_mode_default`: the display mode a reset selects. -/
  extendedModeDefault : Bool
  /-- `font`: the 80 bytes a reset writes to 0x000 to 0x04F (spec/20_memory.md R86). -/
  font : Vector Byte fontSize
  deriving DecidableEq, Repr

/-- The draw `rand`: the byte "random()" gives, free for every CXNN step (spec/42_alu.md R195, decision D27).
The argument is the number of draws taken before (log 5). -/
opaque Config.rand : Nat → Byte

/-- The draw `mode_switch_grid`: what the grid holds after a mode change, free each time
(spec/44_display.md R242, decision D15; log 6). -/
opaque Config.modeSwitchGrid : Nat → Grid

/-- The draw `key_choice`: which of several latched keys a completing FX0A reports, free each time
(spec/45_keypad_timers.md R283, decision D13; log 7). -/
opaque Config.keyChoice : Nat → Nat

end Sys2Proof
end

