-- ==== Sys2Proof/Machine/Font.lean ====
section
/-! DEFINITION. The conventional font of spec/20_memory.md R86 and the default configuration of spec/00_scope.md R11. -/

namespace Sys2Proof.Machine

/-- The default font, glyph N at 5·N (R86). PRESUMED (log 3): the spec supplies these bytes from general knowledge. -/
def defaultFont : Vector Byte fontSize :=
  ((#v[0xF0, 0x90, 0x90, 0x90, 0xF0,  0x20, 0x60, 0x20, 0x20, 0x70,
     0xF0, 0x10, 0xF0, 0x80, 0xF0,  0xF0, 0x10, 0xF0, 0x10, 0xF0] : Vector Byte 20) ++
  (#v[0x90, 0x90, 0xF0, 0x10, 0x10,  0xF0, 0x80, 0xF0, 0x10, 0xF0,
     0xF0, 0x80, 0xF0, 0x90, 0xF0,  0xF0, 0x10, 0x20, 0x40, 0x40] : Vector Byte 20) ++
  (#v[0xF0, 0x90, 0xF0, 0x90, 0xF0,  0xF0, 0x90, 0xF0, 0x10, 0xF0,
     0xF0, 0x90, 0xF0, 0x90, 0x90,  0xE0, 0x90, 0xE0, 0x90, 0xE0] : Vector Byte 20) ++
  (#v[0xF0, 0x80, 0x80, 0x80, 0xF0,  0xE0, 0x90, 0x90, 0x90, 0xE0,
     0xF0, 0x80, 0xF0, 0x80, 0xF0,  0xF0, 0x80, 0xF0, 0x80, 0x80] : Vector Byte 20) : Vector Byte (20 + 20 + 20 + 20))

/-- The default configuration: shift VY, increment I, base mode, conventional font (R11, R86; log 18). -/
def defaultCfg : Cfg where
  shiftUsesVy := true
  loadStoreIncrementsI := true
  extendedModeDefault := false
  font := defaultFont

end Sys2Proof.Machine
end

