-- ==== Sys2Proof/Machine/State.lean ====
section
/-! DEFINITION. Everything the spec gives the machine (spec/10_state.md R53), the reasons a step can stop,
and the state after reset. -/

namespace Sys2Proof.Machine

/-- The four fatal errors and the `info` each records (spec/60_exceptions.md R300). -/
inductive ErrorKind where
  /-- `addr`: the lowest address of the access above 0xFFF, an unbounded integer (spec/20_memory.md R73). -/
  | addressOutOfBounds (addr : Nat)
  | stackOverflow
  | stackUnderflow
  | illegalInstruction (opcode : Word)
  deriving DecidableEq, Repr

/-- The error record `e` of `Halted(e)` (R300): what happened, and the address of the instruction that raised it. -/
structure ErrorRecord where
  error : ErrorKind
  pc : Word
  deriving DecidableEq, Repr

/-- The CPU run state (spec/10_state.md R48). -/
inductive Run where
  | running
  /-- FX0A has begun; `x` is its register (spec/45_keypad_timers.md R282). -/
  | waitingForKey (x : Nibble)
  /-- A fatal error was raised; terminal but for a load (spec/60_exceptions.md R302, R307). -/
  | halted (e : ErrorRecord)
  deriving DecidableEq, Repr

/-- Memory: the bytes that differ from what an unlisted address reads as, by rising address
(spec/20_memory.md R70; the form is `Memory.wf` of Machine/Memory.lean). -/
abbrev Memory := List Host.Cell

/-- Where the model stops with a fault. The four errors of the spec are no faults here: they are next states
whose `run` is `halted` (log 9). -/
inductive Fault where
  /-- Raised by RET (00EE) alone, in a state whose SP is above 16. The spec's SP is 0 to 16 (R38), so no run
  reaches such a state. Safe (log 10): the model stops where the spec says nothing. -/
  | stackPointerOutOfRange
  deriving DecidableEq, Repr

/-- Where the model refuses. All but the first are the spec's own refusals (spec/60_exceptions.md R309, R310):
legal words with an operand value to which the spec gives no meaning; `pc` is the instruction's address, the
mark `refused(reason, pc)` of R309. Each is safe: nothing is claimed of what the hardware does there (log 11). -/
inductive Refusal where
  /-- Raised by an arm of `exec` with no meaning yet. Safe. No arm is left with it. -/
  | notModelled (mnemonic : String)
  /-- Raised by DXYN with N = 0 in base mode (R249). Safe. -/
  | spriteHeightZero (pc : Word)
  /-- Raised by EX9E and EXA1 with VX above 0xF (R280, R281). Safe. -/
  | keyIndexOutOfRange (pc : Word)
  /-- Raised by FX29 with VX above 0xF (R212). Safe. -/
  | fontDigitOutOfRange (pc : Word)
  /-- Raised by FX75 and FX85 with X above 7 (R218, R219). Safe. -/
  | rplSlotOutOfRange (pc : Word)
  deriving DecidableEq, Repr

/-- The state, field by field as spec/10_state.md R53 lists it, under the names of spec/00_scope.md R16. -/
structure State where
  /-- V0 to VF (R30). VF is also the flag (R31). -/
  V : Vector Byte 16
  /-- The index register (R34). -/
  I : Word
  /-- The program counter: the address of the instruction being executed (R35). -/
  pc : Word
  /-- The stack depth, 0 to 16 (R38). -/
  sp : Byte
  /-- The call stack, entries 0 to sp - 1 live (R39). -/
  stack : Vector Word stackDepth
  /-- The delay timer (R42). -/
  DT : Byte
  /-- The sound timer (R42). -/
  ST : Byte
  /-- The display mode (R44). -/
  mode : Mode
  /-- The framebuffer (R43); outside the active grid it is 0 (log 14). -/
  fb : Grid
  /-- The key levels, true for pressed (R45). -/
  keys : Vector Bool 16
  /-- The press latch (R46). -/
  latch : Vector Bool 16
  /-- The SCHIP flag storage (R47). -/
  rpl : Vector Byte 8
  /-- The run state (R48). -/
  run : Run
  /-- Memory (R50). -/
  mem : Memory
  /-- The configuration (R49, R53), carried here because a step is a function of the state alone (log 1). -/
  cfg : Cfg
  /-- The model's own: how many free inputs have been drawn so far (log 5). -/
  draws : Nat
  deriving DecidableEq, Repr

/-- The state after creation, that is after a reset with an empty ROM image (spec/70_reset_and_hazards.md R330, R331),
in the default configuration. DESIGN CHOICE: memory outside the font reads 0 (log 2), the stack entries are 0 (log 4),
no draw is taken (log 5). -/
def State.reset : State where
  V := Vector.replicate 16 0
  I := 0
  pc := BitVec.ofNat 16 programBase
  sp := 0
  stack := Vector.replicate stackDepth 0
  DT := 0
  ST := 0
  mode := if defaultCfg.extendedModeDefault then .extended else .base
  fb := Vector.replicate 64 0
  keys := Vector.replicate 16 false
  latch := Vector.replicate 16 false
  rpl := Vector.replicate 8 0
  run := .running
  mem := []
  cfg := defaultCfg
  draws := 0

/-- What a step or a meaning answers. -/
abbrev StepResult := Host.Outcome State Fault Refusal

end Sys2Proof.Machine
end

