-- ==== Sys2Proof/Machine/Memory.lean ====
section
/-! DEFINITION. The flat 4096-byte memory (spec/20_memory.md): one canonical form, reading and writing of bytes. -/

namespace Sys2Proof.Machine

/-- What an address reads as that the list does not hold: the default font at 0x000 to 0x04F (R86), 0 elsewhere.
DESIGN CHOICE (log 2, unsafe): the 0 stands for `mem_init`, which the spec leaves free (R333). -/
def Memory.unlisted (a : Nat) : Byte :=
  if h : a < fontSize then defaultFont[a] else 0

/-- The byte at an address (`read8`, R74). Addresses are unbounded integers; the bounds check of R73 is
`accessThen` of Machine/Ops.lean. -/
def Memory.read : Memory → Nat → Byte
  | [], a => Memory.unlisted a
  | (b, v) :: m, a => if b = a then v else Memory.read m a

/-- The list without its entry for an address. -/
def Memory.erase (m : Memory) (a : Nat) : Memory := m.filter fun c => c.1 ≠ a

/-- The list with an entry put before the first higher address. -/
def Memory.insert : Memory → Nat → Byte → Memory
  | [], a, v => [(a, v)]
  | c :: m, a, v => if a < c.1 then (a, v) :: c :: m else c :: Memory.insert m a v

/-- Write one byte (`write8`, R74): the byte an unlisted address reads as leaves no entry. -/
def Memory.write (m : Memory) (a : Nat) (v : Byte) : Memory :=
  if v = Memory.unlisted a then m.erase a else (m.erase a).insert a v

/-- The canonical form: addresses below 4096 and strictly rising, no entry that an unlisted address reads as. -/
abbrev Memory.wf (m : Memory) : Prop :=
  m.Pairwise (fun c d => c.1 < d.1) ∧ ∀ c ∈ m, c.1 < memSize ∧ c.2 ≠ Memory.unlisted c.1

/-- The bytes at `a`, `a + 1`, …, lowest address first (R74). -/
def Memory.readBytes (m : Memory) (a n : Nat) : List Byte :=
  (List.range n).map fun k => m.read (a + k)

/-- Write bytes at `a`, `a + 1`, … (R74). -/
def Memory.writeBytes (m : Memory) (a : Nat) : List Byte → Memory
  | [] => m
  | v :: vs => (m.write a v).writeBytes (a + 1) vs

/-- `read16`: the word whose high byte is at the lower address (R74, R75). -/
def Memory.readWord (m : Memory) (a : Nat) : Word := wordOfBytes (m.read a) (m.read (a + 1))

end Sys2Proof.Machine
end

