-- ==== Sys2Proof/Machine/Screen.lean ====
section
/-! DEFINITION. The framebuffer operations of spec/44_display.md R240 to R247, on the active grid of a mode. -/

namespace Sys2Proof.Machine

/-- Pixel (x, y), column x and row y (R240). -/
def pixelAt (g : Grid) (x y : Nat) : Bool :=
  if h : y < 64 then g[y].getLsbD x else false

/-- The grid of a mode's size with every pixel 0. -/
def blankGrid : Grid := Vector.replicate 64 0

/-- XOR 1 into pixel (x, y). -/
def flipPixel (g : Grid) (x y : Nat) : Grid :=
  if h : y < 64 then g.set y (g[y] ^^^ BitVec.twoPow 128 x) else g

/-- Bit (r, c) of a sprite of w columns, `c` counted from the left: the most significant bit of a row is its
leftmost pixel (R244, R245). -/
def spriteBit {w : Nat} (row : BitVec w) (c : Nat) : Bool := row.getLsbD (w - 1 - c)

/-- The columns 0 to w - 1 of one sprite row whose bit is 1, from the left. -/
def rowColumns {w : Nat} (row : BitVec w) : List Nat := (List.range w).filter (spriteBit row)

/-- The grid pixels that a sprite drawn at (x, y) touches, row by row and from the left in each row:
"(x + col) mod width, (y + row) mod height" (R243). -/
def spritePixels {w : Nat} (m : Mode) (x y : Nat) (rows : List (BitVec w)) : List (Nat × Nat) :=
  rows.zipIdx.flatMap fun (row, r) =>
    (rowColumns row).map fun c => ((x + c) % m.width, (y + r) % m.height)

/-- One turn of the loop of R243: note a pixel that was 1, and XOR 1 into it. -/
def plotPixel (acc : Grid × Bool) (p : Nat × Nat) : Grid × Bool :=
  (flipPixel acc.1 p.1 p.2, acc.2 || pixelAt acc.1 p.1 p.2)

/-- `draw_sprite`: the new grid, and whether a pixel went from 1 to 0 (R243). -/
def drawSprite {w : Nat} (m : Mode) (g : Grid) (x y : Nat) (rows : List (BitVec w)) : Grid × Bool :=
  (spritePixels m x y rows).foldl plotPixel (g, false)

/-- `scroll_down`: every row moves down by `n`, and rows of 0 come in from the top (R247). -/
def scrollGrid (m : Mode) (n : Nat) (g : Grid) : Grid :=
  Vector.ofFn fun (y : Fin 64) =>
    if y.val < m.height then (if n ≤ y.val then g[y.val - n] else 0) else g[y.val]

/-- A grid cut to the active size of a mode: what lies outside is 0 (log 14). -/
def cropGrid (m : Mode) (g : Grid) : Grid :=
  Vector.ofFn fun (y : Fin 64) =>
    if y.val < m.height then (g[y.val].setWidth m.width).setWidth 128 else 0

end Sys2Proof.Machine
end

