-- ==== Sys2Proof/Machine/Ops.lean ====
section
/-! DEFINITION. The named operations every meaning is written over: registers, the program counter, the stack,
the bounds check, entering Halted, the free inputs, the display mode and the status a step returns. -/

namespace Sys2Proof.Machine

/-! ### Registers (spec/10_state.md R30) -/

/-- `V[x]`. -/
def State.readV (s : State) (x : Nibble) : Byte := s.V[x.toNat]'(x.isLt)

/-- `V[x] <- b`. -/
def State.writeV (s : State) (x : Nibble) (b : Byte) : State :=
  { s with V := s.V.set x.toNat b x.isLt }

/-! ### The program counter (spec/40_execution.md R135, R136) -/

/-- `pc <- next_pc`. -/
def State.advance (s : State) : State := { s with pc := s.pc + 2 }

/-- A skip: net +4 if the condition holds, else +2 (R136). -/
def State.skipIf (s : State) (c : Bool) : State :=
  { s with pc := if c then s.pc + 4 else s.pc + 2 }

/-- `pc <- target`. -/
def State.jump (s : State) (target : Word) : State := { s with pc := target }

/-! ### Entering Halted (spec/60_exceptions.md R300, R302) -/

/-- The error codes of R300. -/
def ErrorKind.code : ErrorKind → Nat
  | .addressOutOfBounds _ => 1
  | .stackOverflow => 2
  | .stackUnderflow => 3
  | .illegalInstruction _ => 4

/-- Raise an error: the only state written is `run`, with the error and the pc of the instruction (R302).
There is no return from it but a load (R307). -/
def raise (e : ErrorKind) (s : State) : StepResult :=
  .next { s with run := .halted { error := e, pc := s.pc } }

/-! ### Memory accesses (spec/20_memory.md R73) -/

/-- The lowest address above 0xFFF of an access that starts at `a` and reaches past 0xFFF (R73). -/
def lowestBadAddress (a : Nat) : Nat := max a memSize

/-- Check the `n ≥ 1` bytes from `a` as a whole, before anything is written, and go on or raise (R73, R74). -/
def accessThen (s : State) (a n : Nat) (k : StepResult) : StepResult :=
  if a + n ≤ memSize then k else raise (.addressOutOfBounds (lowestBadAddress a)) s

/-! ### The call stack (spec/10_state.md R40, R41) -/

/-- `push`: StackOverflow if the depth would exceed 16. -/
def pushThen (s : State) (a : Word) (k : State → StepResult) : StepResult :=
  if h : s.sp.toNat < stackDepth then
    k { s with stack := s.stack.set s.sp.toNat a h, sp := s.sp + 1 }
  else raise .stackOverflow s

/-- `pop`: StackUnderflow if the stack is empty; the entry is not cleared. A depth above 16 is no state of the
spec's, and the model stops there (log 10). -/
def popThen (s : State) (k : Word → State → StepResult) : StepResult :=
  if s.sp = 0 then raise .stackUnderflow s
  else if h : s.sp.toNat - 1 < stackDepth then k (s.stack[s.sp.toNat - 1]) { s with sp := s.sp - 1 }
  else .fault .stackPointerOutOfRange

/-! ### Free inputs (spec/00_scope.md R12) -/

/-- Count one draw as taken, so that the next one is a fresh free value (log 5). -/
def State.countDraw (s : State) : State := { s with draws := s.draws + 1 }

/-! ### The display (spec/44_display.md R241, R242) -/

/-- `set_mode`: no change in the mode already active, else the new mode and a free grid of its size (R242). -/
def setMode (m : Mode) (s : State) : State :=
  if m = s.mode then s
  else State.countDraw { s with mode := m, fb := cropGrid m (Config.modeSwitchGrid s.draws) }

/-! ### The keypad (spec/45_keypad_timers.md R273, R274) -/

/-- No key latched. -/
def noKeys : Vector Bool 16 := Vector.replicate 16 false

/-- The latched keys, in rising order. -/
def State.latchedKeys (s : State) : List Nibble :=
  ((List.finRange 16).filter fun k => s.latch[k]).map fun k => BitVec.ofFin k

/-- A choice from a list by a free number: every member is the answer for some number (R283). -/
def chooseFrom (choice : Nat) : List Nibble → Option Nibble
  | [] => none
  | [k] => some k
  | k :: ks => some ((k :: ks)[choice % (ks.length + 1)]'(Nat.mod_lt _ (Nat.succ_pos _)))

/-! ### What a step reports (spec/40_execution.md R138) -/

/-- The status `step()` returns. -/
inductive Status where
  | ok
  | stillWaiting
  | halted (e : ErrorRecord)
  deriving DecidableEq, Repr

/-- The status of a step that ended in this state (R131, R132, R138): each of the three statuses goes with one
run state after the step. -/
def State.status (s : State) : Status :=
  match s.run with
  | .running => .ok
  | .waitingForKey _ => .stillWaiting
  | .halted e => .halted e

/-! ### What the host reads (spec/44_display.md R250, spec/45_keypad_timers.md R278) -/

/-- `is_sound_active`. -/
def State.isSoundActive (s : State) : Bool := s.ST != 0

/-- Pixel (x, y) of the active grid; nothing outside it is a pixel (R240). -/
def State.pixel (s : State) (x y : Nat) : Bool :=
  decide (x < s.mode.width) && decide (y < s.mode.height) && pixelAt s.fb x y

/-- The framebuffer as the host reads it, row by row from the top, each from the left (R240, R250). -/
def State.screen (s : State) : List (List Bool) :=
  (List.range s.mode.height).map fun y => (List.range s.mode.width).map fun x => s.pixel x y

end Sys2Proof.Machine
end

