-- ==== Sys2Proof/Machine/Flags.lean ====
section
/-! DEFINITION. The flag values that instructions write to VF (spec/10_state.md R31, R32) and the flag-last rule
(spec/40_execution.md R140). -/

namespace Sys2Proof.Machine

/-- VF, the flag register (R31). -/
def vF : Nibble := 0xF

/-- A flag is exactly 0 or 1 (spec/42_alu.md R191, spec/44_display.md R249). -/
def flagByte (b : Bool) : Byte := if b then 1 else 0

/-- 8XY4: 1 iff "the unsigned sum exceeds 255" (R186). -/
def carryFlag (a b : Byte) : Byte := flagByte (decide (255 < a.toNat + b.toNat))

/-- 8XY5 and 8XY7: 1 iff the minuend is at least the subtrahend (R187, R193). -/
def notBorrowFlag (minuend subtrahend : Byte) : Byte :=
  flagByte (decide (subtrahend.toNat ≤ minuend.toNat))

/-- 8XY6: bit 0 of the source (R192). -/
def shiftedOutRight (src : Byte) : Byte := flagByte (src.getLsbD 0)

/-- 8XYE: bit 7 of the source (R194). -/
def shiftedOutLeft (src : Byte) : Byte := flagByte (src.getLsbD 7)

/-- Primary result to VX first, flag to VF last: with X = 0xF, VF ends holding the flag (R140). -/
def State.writeResultAndFlag (s : State) (x : Nibble) (result flag : Byte) : State :=
  (s.writeV x result).writeV vF flag

end Sys2Proof.Machine
end

