-- ==== Sys2Proof/Machine/Operands.lean ====
section
/-! DEFINITION. The operand forms beyond a plain register or immediate: the shift source, the operands that name a
key, a glyph or a flag slot, the jump target over V0, the BCD digits, the register block and the sprite rows. -/

namespace Sys2Proof.Machine

/-- The source of 8XY6 and 8XYE: VY or VX, as the option says (spec/42_alu.md R189). -/
def shiftSource (s : State) (x y : Nibble) : Byte :=
  if s.cfg.shiftUsesVy then s.readV y else s.readV x

/-- BNNN's target, NNN + V0 without masking to 12 bits (spec/41_control_flow.md R153). -/
def jumpTargetV0 (s : State) (nnn : Word) : Word := nnn + (s.readV 0).setWidth 16

/-- A register value as a key index or a hexadecimal digit: only 0x0 to 0xF name one
(spec/60_exceptions.md R310). -/
def hexOperand (v : Byte) : Option Nibble :=
  if v.toNat ≤ 0xF then some (v.setWidth 4) else none

/-- `is_pressed(k)`, the level (spec/45_keypad_timers.md R273). -/
def State.isPressed (s : State) (k : Nibble) : Bool := s.keys[k.toNat]'(k.isLt)

/-- The address of the glyph of a digit, `5 * d` (spec/43_index_memory.md R212). -/
def glyphAddress (d : Nibble) : Word := 5 * d.setWidth 16

/-- The three decimal digits of a byte, hundreds first (R213). -/
def bcdDigits (v : Byte) : List Byte :=
  [BitVec.ofNat 8 (v.toNat / 100), BitVec.ofNat 8 (v.toNat / 10 % 10), BitVec.ofNat 8 (v.toNat % 10)]

/-- The bytes of V0 to VX, in order (spec/30_encoding.md R104, spec/43_index_memory.md R216). -/
def registerBlock (s : State) (x : Nibble) : List Byte := s.V.toList.take (x.toNat + 1)

/-- V0 to VX replaced by the bytes from `a` (R217). -/
def loadedBlock (s : State) (x : Nibble) (a : Nat) : Vector Byte 16 :=
  Vector.ofFn fun (k : Fin 16) => if k.val ≤ x.toNat then s.mem.read (a + k.val) else s.V[k.val]

/-- I after FX55 or FX65: I + X + 1 if the option says so (R214). -/
def indexAfterBlock (s : State) (x : Nibble) : Word :=
  if s.cfg.loadStoreIncrementsI then s.I + x.setWidth 16 + 1 else s.I

/-- The flag slots with 0 to X replaced by V0 to VX (R218). -/
def savedFlags (s : State) (x : Nibble) : Vector Byte 8 :=
  Vector.ofFn fun (k : Fin 8) => if k.val ≤ x.toNat then s.V[k.val] else s.rpl[k.val]

/-- V0 to VX replaced by the flag slots 0 to X, for X at most 7 (R219). -/
def restoredBlock (s : State) (x : Nibble) : Vector Byte 16 :=
  Vector.ofFn fun (k : Fin 16) =>
    if h : k.val < 8 then (if k.val ≤ x.toNat then s.rpl[k.val] else s.V[k.val]) else s.V[k.val]

/-- The rows of an 8-pixel-wide sprite: one byte each (spec/44_display.md R244). -/
def smallSpriteRows (m : Memory) (a n : Nat) : List Byte := m.readBytes a n

/-- The 16 rows of a big sprite: two bytes each, the byte at the lower address holding the left 8 pixels (R245). -/
def bigSpriteRows (m : Memory) (a : Nat) : List Word :=
  (List.range 16).map fun r => m.readWord (a + 2 * r)

end Sys2Proof.Machine
end

