-- ==== Sys2Proof/Machine/Alu.lean ====
section
/-! DEFINITION. Register and arithmetic instructions (spec/42_alu.md): 6XNN, 7XNN, the 8-group, CXNN.
Each reads its operands before it writes (R141), writes a flag last (R140) and advances the pc (R135). -/

namespace Sys2Proof.Machine

/-- LD Vx, byte (R180). -/
def execLdImm (x : Nibble) (nn : Byte) (s : State) : StepResult :=
  .next (s.writeV x nn).advance

/-- ADD Vx, byte (R181): modulo 256, no flag. -/
def execAddImm (x : Nibble) (nn : Byte) (s : State) : StepResult :=
  .next (s.writeV x (s.readV x + nn)).advance

/-- LD Vx, Vy (R182). -/
def execLdReg (x y : Nibble) (s : State) : StepResult :=
  .next (s.writeV x (s.readV y)).advance

/-- OR Vx, Vy (R183); VF is no flag here (R188). -/
def execOr (x y : Nibble) (s : State) : StepResult :=
  .next (s.writeV x (s.readV x ||| s.readV y)).advance

/-- AND Vx, Vy (R184, R188). -/
def execAnd (x y : Nibble) (s : State) : StepResult :=
  .next (s.writeV x (s.readV x &&& s.readV y)).advance

/-- XOR Vx, Vy (R185, R188). -/
def execXor (x y : Nibble) (s : State) : StepResult :=
  .next (s.writeV x (s.readV x ^^^ s.readV y)).advance

/-- ADD Vx, Vy (R186): VF is the carry. -/
def execAddReg (x y : Nibble) (s : State) : StepResult :=
  let a := s.readV x
  let b := s.readV y
  .next (s.writeResultAndFlag x (a + b) (carryFlag a b)).advance

/-- SUB Vx, Vy (R187): VX - VY, VF is NOT borrow. -/
def execSub (x y : Nibble) (s : State) : StepResult :=
  let a := s.readV x
  let b := s.readV y
  .next (s.writeResultAndFlag x (a - b) (notBorrowFlag a b)).advance

/-- SHR Vx, Vy (R192): VF is the bit shifted out. -/
def execShr (x y : Nibble) (s : State) : StepResult :=
  let src := shiftSource s x y
  .next (s.writeResultAndFlag x (src >>> 1) (shiftedOutRight src)).advance

/-- SUBN Vx, Vy (R193): VY - VX, VF is NOT borrow. -/
def execSubn (x y : Nibble) (s : State) : StepResult :=
  let a := s.readV x
  let b := s.readV y
  .next (s.writeResultAndFlag x (b - a) (notBorrowFlag b a)).advance

/-- SHL Vx, Vy (R194): VF is the bit shifted out. -/
def execShl (x y : Nibble) (s : State) : StepResult :=
  let src := shiftSource s x y
  .next (s.writeResultAndFlag x (src <<< 1) (shiftedOutLeft src)).advance

/-- RND Vx, byte (R195): a free byte, masked. -/
def execRnd (x : Nibble) (nn : Byte) (s : State) : StepResult :=
  .next (s.writeV x (Config.rand s.draws &&& nn)).countDraw.advance

end Sys2Proof.Machine
end

