-- ==== Sys2Proof/Machine/Control.lean ====
section
/-! DEFINITION. Control transfer (spec/41_control_flow.md): 00EE, 1NNN, 2NNN, BNNN and the register skips. -/

namespace Sys2Proof.Machine

/-- RET (R150): the pc becomes the popped address. -/
def execRet (s : State) : StepResult := popThen s fun a t => .next (t.jump a)

/-- JP addr (R151). -/
def execJp (nnn : Word) (s : State) : StepResult := .next (s.jump nnn)

/-- CALL addr (R152): push next_pc, the address after this instruction. -/
def execCall (nnn : Word) (s : State) : StepResult :=
  pushThen s (s.pc + 2) fun t => .next (t.jump nnn)

/-- JP V0, addr (R153). -/
def execJpV0 (nnn : Word) (s : State) : StepResult := .next (s.jump (jumpTargetV0 s nnn))

/-- SE Vx, byte (R154). -/
def execSeImm (x : Nibble) (nn : Byte) (s : State) : StepResult :=
  .next (s.skipIf (s.readV x == nn))

/-- SNE Vx, byte (R155). -/
def execSneImm (x : Nibble) (nn : Byte) (s : State) : StepResult :=
  .next (s.skipIf (s.readV x != nn))

/-- SE Vx, Vy (R156). -/
def execSeReg (x y : Nibble) (s : State) : StepResult :=
  .next (s.skipIf (s.readV x == s.readV y))

/-- SNE Vx, Vy (R157). -/
def execSneReg (x y : Nibble) (s : State) : StepResult :=
  .next (s.skipIf (s.readV x != s.readV y))

end Sys2Proof.Machine
end

