-- ==== Sys2Proof/Machine/Display.lean ====
section
/-! DEFINITION. The display instructions (spec/44_display.md): 00E0, DXYN with its 16 x 16 form, 00CN, 00FE, 00FF. -/

namespace Sys2Proof.Machine

/-- CLS (R248). -/
def execCls (s : State) : StepResult := .next (State.advance { s with fb := blankGrid })

/-- Draw a sprite at (x, y), then VF: the collision flag (R249). -/
def drawAndFlag {w : Nat} (s : State) (x y : Nat) (rows : List (BitVec w)) : State :=
  let drawn := drawSprite s.mode s.fb x y rows
  State.writeV { s with fb := drawn.1 } vF (flagByte drawn.2)

/-- DRW Vx, Vy, nibble (R249): N rows of 8 pixels, or for N = 0 in extended mode 16 rows of 16; N = 0 in base
mode is refused (R310). -/
def execDrw (x y n : Nibble) (s : State) : StepResult :=
  let px := (s.readV x).toNat
  let py := (s.readV y).toNat
  if n = 0 then
    match s.mode with
    | .extended =>
      accessThen s s.I.toNat 32 (.next (drawAndFlag s px py (bigSpriteRows s.mem s.I.toNat)).advance)
    | .base => .refused (.spriteHeightZero s.pc)
  else
    accessThen s s.I.toNat n.toNat
      (.next (drawAndFlag s px py (smallSpriteRows s.mem s.I.toNat n.toNat)).advance)

/-- SCD nibble (R251). -/
def execScd (n : Nibble) (s : State) : StepResult :=
  .next (State.advance { s with fb := scrollGrid s.mode n.toNat s.fb })

/-- LOW (R252). -/
def execLow (s : State) : StepResult := .next (setMode .base s).advance

/-- HIGH (R253). -/
def execHigh (s : State) : StepResult := .next (setMode .extended s).advance

end Sys2Proof.Machine
end

