-- ==== Sys2Proof/Machine/Index.lean ====
section
/-! DEFINITION. The index register, loads and stores (spec/43_index_memory.md): ANNN, FX1E, FX29, FX33, FX55, FX65,
FX75, FX85. Each makes its checks before its first write (R142) and advances the pc (R135). -/

namespace Sys2Proof.Machine

/-- LD I, addr (R210). -/
def execLdI (nnn : Word) (s : State) : StepResult := .next (State.advance { s with I := nnn })

/-- ADD I, Vx (R211): modulo 65536, no flag. -/
def execAddIVx (x : Nibble) (s : State) : StepResult :=
  .next (State.advance { s with I := s.I + (s.readV x).setWidth 16 })

/-- LD F, Vx (R212): refused for a VX that is no hexadecimal digit (R310). -/
def execLdFVx (x : Nibble) (s : State) : StepResult :=
  match hexOperand (s.readV x) with
  | some d => .next (State.advance { s with I := glyphAddress d })
  | none => .refused (.fontDigitOutOfRange s.pc)

/-- LD B, Vx (R213): the BCD digits at I, I + 1, I + 2. -/
def execLdBVx (x : Nibble) (s : State) : StepResult :=
  accessThen s s.I.toNat 3
    (.next (State.advance { s with mem := s.mem.writeBytes s.I.toNat (bcdDigits (s.readV x)) }))

/-- LD [I], Vx (R216): V0 to VX to memory from I, then I as R214 says. -/
def execLdMemVx (x : Nibble) (s : State) : StepResult :=
  accessThen s s.I.toNat (x.toNat + 1)
    (.next (State.advance { s with
      mem := s.mem.writeBytes s.I.toNat (registerBlock s x)
      I := indexAfterBlock s x }))

/-- LD Vx, [I] (R217): V0 to VX from memory at I, then I as R214 says. -/
def execLdVxMem (x : Nibble) (s : State) : StepResult :=
  accessThen s s.I.toNat (x.toNat + 1)
    (.next (State.advance { s with
      V := loadedBlock s x s.I.toNat
      I := indexAfterBlock s x }))

/-- LD R, Vx (R218): refused for X above 7 (R310). -/
def execLdRVx (x : Nibble) (s : State) : StepResult :=
  if x.toNat ≤ 7 then .next (State.advance { s with rpl := savedFlags s x })
  else .refused (.rplSlotOutOfRange s.pc)

/-- LD Vx, R (R219): refused for X above 7 (R310). -/
def execLdVxR (x : Nibble) (s : State) : StepResult :=
  if x.toNat ≤ 7 then .next (State.advance { s with V := restoredBlock s x })
  else .refused (.rplSlotOutOfRange s.pc)

end Sys2Proof.Machine
end

