-- ==== Sys2Proof/Machine/Keypad.lean ====
section
/-! DEFINITION. The keypad and timer instructions (spec/45_keypad_timers.md): EX9E, EXA1, FX0A, FX07, FX15, FX18. -/

namespace Sys2Proof.Machine

/-- SKP Vx (R280): refused for a VX that names no key (R310). -/
def execSkp (x : Nibble) (s : State) : StepResult :=
  match hexOperand (s.readV x) with
  | some k => .next (s.skipIf (s.isPressed k))
  | none => .refused (.keyIndexOutOfRange s.pc)

/-- SKNP Vx (R281). -/
def execSknp (x : Nibble) (s : State) : StepResult :=
  match hexOperand (s.readV x) with
  | some k => .next (s.skipIf (!s.isPressed k))
  | none => .refused (.keyIndexOutOfRange s.pc)

/-- LD Vx, K, the step that enters the wait (R282): the latch is cleared and the pc stays. -/
def execLdVxK (x : Nibble) (s : State) : StepResult :=
  .next { s with latch := noKeys, run := .waitingForKey x }

/-- LD Vx, K, every step in WaitingForKey(x) (R283): a latched key, freely chosen if there are several, ends the
wait; with none the step changes nothing. -/
def completeWait (x : Nibble) (s : State) : StepResult :=
  match chooseFrom (Config.keyChoice s.draws) s.latchedKeys with
  | none => .next s
  | some k =>
    .next (State.advance (State.countDraw
      { s.writeV x (k.setWidth 8) with latch := noKeys, run := .running }))

/-- LD Vx, DT (R284). -/
def execLdVxDt (x : Nibble) (s : State) : StepResult := .next (s.writeV x s.DT).advance

/-- LD DT, Vx (R285). -/
def execLdDtVx (x : Nibble) (s : State) : StepResult := .next (State.advance { s with DT := s.readV x })

/-- LD ST, Vx (R286). -/
def execLdStVx (x : Nibble) (s : State) : StepResult := .next (State.advance { s with ST := s.readV x })

end Sys2Proof.Machine
end

