-- ==== Sys2Proof/Machine/Fetch.lean ====
section
/-! DEFINITION. Fetching an opcode (spec/40_execution.md R133), and placing one where the next fetch reads it. -/

namespace Sys2Proof.Machine

/-- Fetch the two bytes at pc, big-endian, and go on with the word; past 0xFFF raise AddressOutOfBounds of the
lowest bad address, pc or 0x1000 (R133). -/
def fetchThen (s : State) (k : Word → StepResult) : StepResult :=
  accessThen s s.pc.toNat 2 (k (s.mem.readWord s.pc.toNat))

/-- The state that fetches and runs the word `op` next: Running, with `op` in memory at pc. A pc at which no
opcode can be fetched is first set to 0x200 (log 13). -/
def placeOpcode (s : State) (op : Word) : State :=
  let at_ : Word := if s.pc.toNat + 2 ≤ memSize then s.pc else BitVec.ofNat 16 programBase
  { s with run := .running, pc := at_, mem := s.mem.writeBytes at_.toNat (bytesOfWord op) }

end Sys2Proof.Machine
end

