-- ==== Sys2Proof/Machine/Step.lean ====
section
/-! DEFINITION. The CPU's transition `step()` (spec/40_execution.md R130 to R134). -/

namespace Sys2Proof.Machine

/-- One step: the run state first, then fetch, decode, execute (R130, R306). -/
def step (s : State) : Host.Outcome State Fault Refusal :=
  match s.run with
  | .halted _ => .next s
  | .waitingForKey x => completeWait x s
  | .running =>
    fetchThen s fun op =>
      match decode op with
      | .ok i => exec i s
      | .error _ => raise (.illegalInstruction op) s

/-- The table's word `w` of `nbits` bits, stored where `step` fetches its next instruction. -/
def State.withFetchWord (s : State) (nbits w : Nat) : State :=
  placeOpcode s (BitVec.ofNat 16 (w % 2 ^ nbits))

end Sys2Proof.Machine
end

