-- ==== Sys2Proof/Machine/Agents.lean ====
section
/-! DEFINITION. The transitions of the agents outside the CPU: the timer tick, the key events, creation and the ROM
load (spec/00_scope.md R8, R9). Each is one atomic transition, taken in every run state. -/

namespace Sys2Proof.Machine

/-- A timer counts down to 0 and stays there (spec/45_keypad_timers.md R276). -/
def tickTimer (t : Byte) : Byte := if t = 0 then 0 else t - 1

/-- `tick()`: both timers, each on its own, whatever the run state (R276, R277). -/
def tick (s : State) : State := { s with DT := tickTimer s.DT, ST := tickTimer s.ST }

/-- `set_key(k, pressed)`: a change from released to pressed is latched, a release clears no latch (R272). -/
def setKey (k : Nibble) (pressed : Bool) (s : State) : State :=
  { s with
    latch := if pressed && !s.isPressed k then s.latch.set k.toNat true k.isLt else s.latch
    keys := s.keys.set k.toNat pressed k.isLt }

/-- What a load takes from outside and the spec leaves free: `mem_init` (spec/70_reset_and_hazards.md R333) and the
stack entries (R331). -/
structure LoadInputs where
  memInit : Memory
  stackInit : Vector Word stackDepth
  deriving DecidableEq, Repr

/-- The image fits the program area (R337). -/
def romFits (bytes : List Byte) : Bool := decide (bytes.length ≤ maxRomSize)

/-- Memory after a load: `mem_init`, over it the font at 0x000, over it the image at 0x200 if it fits
(R331, R333, R334, R337). -/
def loadedMemory (cfg : Cfg) (bytes : List Byte) (inputs : LoadInputs) : Memory :=
  (inputs.memInit.writeBytes 0 cfg.font.toList).writeBytes programBase
    (if romFits bytes then bytes else [])

/-- `load(bytes)`: the reset with a ROM image (R331). The key levels, the flag storage and the configuration are not
written (R335, R336, R338); an image that does not fit ends in Halted (R337). -/
def load (bytes : List Byte) (inputs : LoadInputs) (s : State) : State :=
  { s with
    V := Vector.replicate 16 0
    I := 0
    pc := BitVec.ofNat 16 programBase
    sp := 0
    stack := inputs.stackInit
    DT := 0
    ST := 0
    mode := if s.cfg.extendedModeDefault then .extended else .base
    fb := blankGrid
    latch := noKeys
    mem := loadedMemory s.cfg bytes inputs
    run := if romFits bytes then .running
      else .halted { error := .addressOutOfBounds memSize, pc := BitVec.ofNat 16 programBase } }

/-- Creation (R330): no key pressed, the flag storage 0, everything else as a load of an empty image leaves it. -/
def create (cfg : Cfg) (inputs : LoadInputs) : State :=
  load [] inputs { State.reset with cfg := cfg, keys := noKeys, rpl := Vector.replicate 8 0 }

end Sys2Proof.Machine
end

