-- ==== Sys2Proof/Machine/Schedule.lean ====
section
/-! DEFINITION. The interleaving of the agents: the execution is a sequence of atomic transitions in any order
(spec/00_scope.md R9, spec/20_memory.md R88, spec/70_reset_and_hazards.md R342). -/

namespace Sys2Proof.Machine

/-- One transition of one agent. -/
inductive Event where
  /-- The CPU's `step()`. -/
  | step
  /-- The timer driver's `tick()`. -/
  | tick
  /-- The host input's `set_key(k, pressed)`. -/
  | setKey (k : Nibble) (pressed : Bool)
  /-- The host loader's `load(bytes)`, with the inputs the spec leaves free. -/
  | load (bytes : List Byte) (inputs : LoadInputs)
  deriving DecidableEq, Repr

/-- The transition an event names. -/
def transition : Event → State → StepResult
  | .step, s => Sys2Proof.Machine.step s
  | .tick, s => .next (Sys2Proof.Machine.tick s)
  | .setKey k p, s => .next (Sys2Proof.Machine.setKey k p s)
  | .load bytes inputs, s => .next (Sys2Proof.Machine.load bytes inputs s)

/-- Go on from a next state, stop at a fault or a refusal (spec/60_exceptions.md R309). -/
def andThen (r : StepResult) (k : State → StepResult) : StepResult :=
  match r with
  | .next t => k t
  | .fault f => .fault f
  | .refused e => .refused e

/-- A schedule: the events in their order (R88). -/
def runSchedule : List Event → State → StepResult
  | [], s => .next s
  | e :: es, s => andThen (transition e s) (runSchedule es)

/-- The status `step()` returns, if the step ends in a state (spec/40_execution.md R138). -/
def stepStatus (s : State) : Option Status :=
  match step s with
  | .next t => some t.status
  | .fault _ => none
  | .refused _ => none

end Sys2Proof.Machine
end

