-- ==== Sys2Proof/Safety.lean ====
section
/-! DEFINITION. What the states of a run keep, and what a successful end is. -/

namespace Sys2Proof.Machine

/-- Every pixel outside the active grid is 0 (spec/44_display.md R240, log 14). -/
abbrev gridWf (m : Mode) (g : Grid) : Prop :=
  ∀ y : Fin 64, g[y].toNat < 2 ^ m.width ∧ (m.height ≤ y.val → g[y] = 0)

/-- The largest pc that any rule writes (spec/10_state.md R37). -/
abbrev maxPc : Word := 0x10FE

/-- A return address on the stack: at most 0x1000 (spec/41_control_flow.md R152). -/
abbrev stackWf (s : State) : Prop :=
  s.sp.toNat ≤ stackDepth ∧ ∀ k : Fin stackDepth, k.val < s.sp.toNat → s.stack[k] ≤ 0x1000#16

/-- The run state agrees with the pc: a wait began at an opcode that was fetched (spec/45_keypad_timers.md R282),
and an error keeps the pc of its instruction (spec/60_exceptions.md R302). -/
abbrev runWf (s : State) : Prop :=
  match s.run with
  | .running => True
  | .waitingForKey _ => s.pc.toNat + 2 ≤ memSize
  | .halted e => e.pc = s.pc

/-- The invariant of every state a run reaches: memory in its canonical form, no pixel outside the active grid, the
stack depth and the return addresses in their ranges, the pc within R37, the run state in agreement with the pc. -/
structure State.Inv (s : State) : Prop where
  mem : s.mem.wf
  grid : gridWf s.mode s.fb
  stack : stackWf s
  pc : s.pc ≤ maxPc
  run : runWf s

/-- A successful end of a run, relative to an address the claim names: Running, at a jump to itself
(spec/70_reset_and_hazards.md R346). -/
def State.isFinal (s : State) (endPc : Word) : Prop :=
  s.run = .running ∧ s.pc = endPc ∧ endPc.toNat + 2 ≤ memSize ∧ s.mem.readWord endPc.toNat = 0x1000#16 ||| endPc

/-- The conditions under which the spec refuses an instruction (spec/60_exceptions.md R310). -/
def refusalReason (i : Instr) (s : State) : Option Refusal :=
  match i with
  | .drw _ _ n => if n = 0 ∧ s.mode = .base then some (.spriteHeightZero s.pc) else none
  | .skp x => if 0xF < (s.readV x).toNat then some (.keyIndexOutOfRange s.pc) else none
  | .sknp x => if 0xF < (s.readV x).toNat then some (.keyIndexOutOfRange s.pc) else none
  | .ldFVx x => if 0xF < (s.readV x).toNat then some (.fontDigitOutOfRange s.pc) else none
  | .ldRVx x => if 7 < x.toNat then some (.rplSlotOutOfRange s.pc) else none
  | .ldVxR x => if 7 < x.toNat then some (.rplSlotOutOfRange s.pc) else none
  | .cls | .ret | .scd _ | .low | .high | .jp _ | .call _ | .jpV0 _
  | .seImm _ _ | .sneImm _ _ | .seReg _ _ | .sneReg _ _
  | .ldImm _ _ | .addImm _ _ | .ldReg _ _ | .or _ _ | .and _ _ | .xor _ _
  | .addReg _ _ | .sub _ _ | .shr _ _ | .subn _ _ | .shl _ _ | .rnd _ _
  | .ldI _ | .addIVx _ | .ldBVx _ | .ldMemVx _ | .ldVxMem _
  | .ldVxDt _ | .ldVxK _ | .ldDtVx _ | .ldStVx _ => none

end Sys2Proof.Machine
end

