-- ==== Sys2Proof/Certificates/Slice0/Obligations.lean ====
section
/-! DEFINITION. The statements for the provers, from the numbered rules of spec/.
A frame is written as an equation: `t = { s with V := t.V, pc := s.pc + 2 }` says that every other field of the state
is as before; where `mem` is not among the fields named, every byte of memory reads as before. -/

namespace Sys2Proof.Machine

/-! ### The words the statements are written in -/

/-- Every word that the mask and the value select decodes to the given instruction, with the word's own fields. -/
def EncodedBy (mask value : Word) (f : Word → Instr) : Prop :=
  ∀ op, op &&& mask = value → decode op = .ok (f op)

/-- The instruction completes: VX holds r, every other register is as before, the pc is advanced by 2, and nothing
else of the state is changed. -/
def WritesRegister (i : Instr) (s : State) (x : Nibble) (r : Nat) : Prop :=
  ∃ t, exec i s = .next t ∧ (t.readV x).toNat = r ∧ (∀ z, z ≠ x → t.readV z = s.readV z) ∧
    t = { s with V := t.V, pc := s.pc + 2 }

/-- The instruction completes: VF holds the flag f, VX holds r unless it is VF itself, every other register is as
before, the pc is advanced by 2, and nothing else of the state is changed. -/
def WritesResultAndFlag (i : Instr) (s : State) (x : Nibble) (r f : Nat) : Prop :=
  ∃ t, exec i s = .next t ∧ (t.readV 0xF).toNat = f ∧ (x ≠ 0xF → (t.readV x).toNat = r) ∧
    (∀ z, z ≠ x → z ≠ 0xF → t.readV z = s.readV z) ∧ t = { s with V := t.V, pc := s.pc + 2 }

/-- The step ends in Halted with the error, and nothing but the run state is changed. -/
def Raises (r : StepResult) (s : State) (e : ErrorKind) : Prop :=
  r = .next { s with run := .halted { error := e, pc := s.pc } }

/-- The instruction skips if the condition holds: net +4, else +2; nothing else of the state is changed. -/
def SkipsIf (i : Instr) (s : State) (c : Prop) : Prop :=
  (c → exec i s = .next { s with pc := s.pc + 4 }) ∧ (¬ c → exec i s = .next { s with pc := s.pc + 2 })

/-- The words R110 lists as illegal. -/
def IllegalWord (op : Word) : Prop :=
  (op ≤ 0x0FFF#16 ∧ ¬ (0x00C0#16 ≤ op ∧ op ≤ 0x00CF#16) ∧ op ≠ 0x00E0#16 ∧ op ≠ 0x00EE#16 ∧ op ≠ 0x00FE#16 ∧
    op ≠ 0x00FF#16) ∨
  ((opMajor op = 0x5#4 ∨ opMajor op = 0x9#4) ∧ opN op ≠ 0#4) ∨
  (opMajor op = 0x8#4 ∧ opN op ∈ [0x8#4, 0x9#4, 0xA#4, 0xB#4, 0xC#4, 0xD#4, 0xF#4]) ∨
  (opMajor op = 0xE#4 ∧ opNN op ∉ [0x9E#8, 0xA1#8]) ∨
  (opMajor op = 0xF#4 ∧
    opNN op ∉ [0x07#8, 0x0A#8, 0x15#8, 0x18#8, 0x1E#8, 0x29#8, 0x33#8, 0x55#8, 0x65#8, 0x75#8, 0x85#8])

/-- The error of an access of n bytes from I, if it passes 0xFFF (R73). -/
def pastTheTop (s : State) (n : Nat) : Option ErrorKind :=
  if 0x1000 < s.I.toNat + n then some (.addressOutOfBounds (if s.I.toNat < 0x1000 then 0x1000 else s.I.toNat))
  else none

/-- The error an instruction raises, if it raises one (R300). -/
def raisedError : Instr → State → Option ErrorKind
  | .ret, s => if s.sp = 0 then some .stackUnderflow else none
  | .call _, s => if 16 ≤ s.sp.toNat then some .stackOverflow else none
  | .ldBVx _, s => pastTheTop s 3
  | .ldMemVx x, s => pastTheTop s (x.toNat + 1)
  | .ldVxMem x, s => pastTheTop s (x.toNat + 1)
  | .drw _ _ n, s =>
    if n = 0 then (if s.mode = .extended then pastTheTop s 32 else none) else pastTheTop s n.toNat
  | _, _ => none

/-! Sprites (R243, R244, R245, R249). -/

def spriteWidth (n : Nibble) : Nat := if n = 0 then 16 else 8
def spriteHeight (n : Nibble) : Nat := if n = 0 then 16 else n.toNat
def spriteBytes (n : Nibble) : Nat := if n = 0 then 32 else n.toNat

/-- Bit (r, c) of the sprite at I (R244, R245; PRESUMED, log 19): bit 7 of a byte is its leftmost pixel; a row of a big sprite is two bytes, the one
at the lower address left. -/
def spriteBitAt (s : State) (n : Nibble) (r c : Nat) : Bool :=
  if n = 0 then
    (if c < 8 then (s.mem.read (s.I.toNat + 2 * r)).getLsbD (7 - c)
      else (s.mem.read (s.I.toNat + 2 * r + 1)).getLsbD (15 - c))
  else (s.mem.read (s.I.toNat + r)).getLsbD (7 - c)

/-- The draw DXYN puts a set bit of its sprite on pixel (px, py). -/
def Touches (s : State) (x y n : Nibble) (px py : Nat) : Prop :=
  ∃ r c, r < spriteHeight n ∧ c < spriteWidth n ∧ spriteBitAt s n r c = true ∧
    px = ((s.readV x).toNat + c) % s.mode.width ∧ py = ((s.readV y).toNat + r) % s.mode.height

/-- The draw is none that R310 refuses, and its sprite lies in memory. -/
def DrawAllowed (s : State) (n : Nibble) : Prop :=
  (n ≠ 0 ∨ s.mode = .extended) ∧ s.I.toNat + spriteBytes n ≤ 0x1000

/-- A load takes a `mem_init` in the canonical form; every other event is as it is. -/
def Event.wf : Event → Prop
  | .load _ inputs => inputs.memInit.wf
  | .step | .tick | .setKey _ _ => True

/-- The three transitions that clear the press latch (R274): the step that enters an FX0A wait, the step that
completes it, a load. -/
def ClearsTheLatch (e : Event) (s t : State) : Prop :=
  (∃ x, e = .step ∧ s.run = .running ∧ t.run = .waitingForKey x) ∨
  (∃ x, e = .step ∧ s.run = .waitingForKey x ∧ t.run = .running) ∨
  ∃ bytes inputs, e = .load bytes inputs

/-- The CALLs to these addresses, one after the other. -/
def callAll (targets : List Word) (s : State) : StepResult :=
  targets.foldl (fun r a => andThen r (exec (.call a))) (.next s)

end Sys2Proof.Machine

open Sys2Proof Sys2Proof.Machine

/-! ### Encoding (30_encoding.md) -/

/-- R100 to R109: no bit of an encoding is dropped, with every operand at every value its field admits. The words that
the spec supplies from general knowledge (93_implementation_defined.md G4, G5, G9, G10; PRESUMED, log 19) are among them. -/
def Obligations.EncodeThenDecode : Prop :=
  ∀ i : Instr, i.wf = true → decode (encode i) = .ok i

/-- R101, R103, R113: a word that decodes is the word of the instruction it decodes to, and of no other. The words that
the spec supplies from general knowledge (PRESUMED, log 19) are among them. -/
def Obligations.DecodeThenEncode : Prop :=
  ∀ (op : Word) (i : Instr), decode op = .ok i → i.wf = true ∧ encode i = op

/-- R113, R134: the decoder agrees with the opcode table, and no word is selected by two rows. Rows 5XY0, 9XY0, 00CN, 00FE
and 00FF and the minor numbers 0, 1, 2, 3, 6, 7 and E of the 8-group are the spec's general knowledge
(93_implementation_defined.md G4, G5, G9, G10), PRESUMED in log 19. -/
def Obligations.DecodeSelectsTheUniqueRow : Prop :=
  ∀ op : Word,
    (∀ i, decode op = .ok i → opcodeTable.filter (fun r => r.selects op) = [i.row]) ∧
    (∀ e, decode op = .error e → opcodeTable.filter (fun r => r.selects op) = [])

/-- R110, R305: exactly the listed words are illegal, and running one halts with IllegalInstruction. The list is what the
rows of R105 to R109 leave over: where those rows are the spec's general knowledge (5XY0, 9XY0, 00CN and the minor
numbers of the 8-group but 4 and 5; 93_implementation_defined.md G4, G5, G9), it rests on log 19 (PRESUMED). -/
def Obligations.IllegalWordsHalt : Prop :=
  (∀ op : Word, (∃ e, decode op = .error e) ↔ IllegalWord op) ∧
  (∀ s : State, s.run = .running → s.pc ≤ 0xFFE#16 → IllegalWord (s.mem.readWord s.pc.toNat) →
    Raises (step s) s (.illegalInstruction (s.mem.readWord s.pc.toNat)))

/-- Words written out from the formats of R102 and the rows of R105, R106, R107, R109 and R110; some of them are the
vectors E2 to E18 of 95_test_vectors.md L2. Three of them are the spec's general knowledge, PRESUMED in log 19: 5XY0
(0x5120, and 0x5121 beside it), 00CN (0x00CF) and the minor number E of SHL (0x8ABE). -/
def Obligations.SampleWordsDecode : Prop :=
  decode 0x00E0 = .ok .cls ∧ decode 0x00CF = .ok (.scd 15) ∧ decode 0xB123 = .ok (.jpV0 0x123) ∧
  decode 0x5120 = .ok (.seReg 1 2) ∧ decode 0x8ABE = .ok (.shl 0xA 0xB) ∧ decode 0x7201 = .ok (.addImm 2 1) ∧
  decode 0xD345 = .ok (.drw 3 4 5) ∧ decode 0xE1A1 = .ok (.sknp 1) ∧ decode 0xF533 = .ok (.ldBVx 5) ∧
  decode 0x5121 = .error (.illegal 0x5121) ∧ decode 0xF030 = .error (.illegal 0xF030)

/-! ### The step (40_execution.md, 60_exceptions.md) -/

/-- R75, R130, R134: the byte at pc is the high byte, the byte at pc + 1 the low byte, and the step is what the
instruction they encode does. -/
def Obligations.StepRunsTheDecodedInstruction : Prop :=
  ∀ (s : State) (op : Word) (i : Instr), s.run = .running → s.pc ≤ 0xFFE#16 →
    op.extractLsb' 8 8 = s.mem.read s.pc.toNat → op.extractLsb' 0 8 = s.mem.read (s.pc.toNat + 1) →
    decode op = .ok i → step s = exec i s

/-- R133: a fetch past 0xFFF raises AddressOutOfBounds with the lowest address that does not exist. -/
def Obligations.FetchPastTheTopRaises : Prop :=
  ∀ s : State, s.run = .running →
    (s.pc = 0xFFF#16 → Raises (step s) s (.addressOutOfBounds 0x1000)) ∧
    (0xFFF#16 < s.pc → Raises (step s) s (.addressOutOfBounds s.pc.toNat))

/-- R131: a step in Halted changes nothing and returns Halted(e); only a load leaves Halted. That a step in Halted is a
no-op rather than an error of its own is "the spec's reading" (R131, D25), DEDUCED in log 9. -/
def Obligations.HaltedIsTerminal : Prop :=
  (∀ (s : State) (e : ErrorRecord), s.run = .halted e → step s = .next s ∧ stepStatus s = some (.halted e)) ∧
  (∀ (s t : State) (e : ErrorRecord) (ev : Event), s.run = .halted e → (∀ b inputs, ev ≠ .load b inputs) →
    transition ev s = .next t → t.run = .halted e) ∧
  (∀ (s : State) (bytes : List Byte) (inputs : LoadInputs), bytes.length ≤ 3584 →
    (load bytes inputs s).run = .running)

/-- R138: which status a step returns, in each run state. -/
def Obligations.StatusOfAStep : Prop :=
  (∀ (s : State) (e : ErrorRecord), s.run = .halted e → stepStatus s = some (.halted e)) ∧
  (∀ (s : State) (x : Nibble), s.run = .waitingForKey x →
    stepStatus s = some (if s.latch = noKeys then .stillWaiting else .ok)) ∧
  (∀ s t : State, s.run = .running → step s = .next t →
    (∃ e, t.run = .halted e ∧ stepStatus s = some (.halted e)) ∨
    (∃ x, decode (s.mem.readWord s.pc.toNat) = .ok (.ldVxK x) ∧ t.run = .waitingForKey x ∧
      stepStatus s = some .stillWaiting) ∨
    (∃ i, decode (s.mem.readWord s.pc.toNat) = .ok i ∧ (∀ x, i ≠ .ldVxK x) ∧ t.run = .running ∧
      stepStatus s = some .ok))

/-- R302: a step that raises an error writes nothing but `run`, and the error keeps the pc of the instruction. -/
def Obligations.RaisingWritesOnlyRun : Prop :=
  ∀ (s t : State) (e : ErrorRecord), (∀ e', s.run ≠ .halted e') → step s = .next t → t.run = .halted e →
    t = { s with run := .halted e } ∧ e.pc = s.pc

/-- R300, R301, R303, R304: which instruction raises which error, and when. The spec has CALL raise StackOverflow at
SP = 16; that it does so for an SP above 16 too, where the spec has no state, is the model's DESIGN CHOICE of log 10. -/
def Obligations.ErrorsAreRaisedExactly : Prop :=
  ∀ (i : Instr) (s : State),
    (∀ k, raisedError i s = some k → Raises (exec i s) s k) ∧
    (raisedError i s = none → s.run = .running → ∀ t e, exec i s = .next t → t.run ≠ .halted e)

/-- R310: the refused cases are exactly the four of the table, each with its reason and the pc. -/
def Obligations.RefusedExactlyInTheFourCases : Prop :=
  ∀ (i : Instr) (s : State) (r : Refusal), exec i s = .refused r ↔
    ((∃ x y, i = .drw x y 0 ∧ s.mode = .base ∧ r = .spriteHeightZero s.pc) ∨
     (∃ x, (i = .skp x ∨ i = .sknp x) ∧ 0xF < (s.readV x).toNat ∧ r = .keyIndexOutOfRange s.pc) ∨
     (∃ x, i = .ldFVx x ∧ 0xF < (s.readV x).toNat ∧ r = .fontDigitOutOfRange s.pc) ∨
     (∃ x, (i = .ldRVx x ∨ i = .ldVxR x) ∧ 7 < x.toNat ∧ r = .rplSlotOutOfRange s.pc))

/-! ### Invariants -/

/-- The state after reset meets the invariant. -/
def Obligations.ResetMeetsTheInvariant : Prop := State.reset.Inv

/-- R37, R38, R152, R240 and the canonical form of memory: a step from any state that meets the invariant gives one
that meets it. -/
def Obligations.StepKeepsTheInvariant : Prop :=
  ∀ s t : State, s.Inv → step s = .next t → t.Inv

/-- R9, R88: so does every interleaving of steps, ticks, key events and loads. -/
def Obligations.EveryScheduleKeepsTheInvariant : Prop :=
  ∀ (events : List Event) (s t : State), s.Inv → (∀ e ∈ events, e.wf) → runSchedule events s = .next t → t.Inv

/-- R38, R138: no state that a run reaches steps to a fault of the model. -/
def Obligations.InvariantStatesNeverFault : Prop :=
  ∀ (s : State) (f : Fault), s.Inv → step s ≠ .fault f

/-! ### Who writes what -/

/-- R338: no transition of any agent changes the configuration or the font. -/
def Obligations.ConfigurationIsFixed : Prop :=
  ∀ (e : Event) (s t : State), transition e s = .next t → t.cfg = s.cfg

/-- R45, R336: only `set_key` changes a key level. -/
def Obligations.OnlyTheHostSetsKeys : Prop :=
  ∀ (e : Event) (s t : State), (∀ k p, e ≠ .setKey k p) → transition e s = .next t → t.keys = s.keys

/-- R72: only FX33 and FX55 change memory, and only the bytes they store to. -/
def Obligations.MemoryWriters : Prop :=
  ∀ (i : Instr) (s t : State) (a : Nat), exec i s = .next t → t.mem.read a ≠ s.mem.read a →
    (∃ x, i = .ldBVx x ∧ s.I.toNat ≤ a ∧ a < s.I.toNat + 3) ∨
    (∃ x, i = .ldMemVx x ∧ s.I.toNat ≤ a ∧ a ≤ s.I.toNat + x.toNat)

/-- R38, R39: only CALL and RET change SP, only CALL changes a stack entry. -/
def Obligations.StackWriters : Prop :=
  ∀ (i : Instr) (s t : State), exec i s = .next t →
    (t.sp ≠ s.sp → i = .ret ∨ ∃ a, i = .call a) ∧ (t.stack ≠ s.stack → ∃ a, i = .call a)

/-- R43, R44: which instructions change the framebuffer, and which the mode. -/
def Obligations.DisplayWriters : Prop :=
  ∀ (i : Instr) (s t : State), exec i s = .next t →
    (t.fb ≠ s.fb → i = .cls ∨ i = .low ∨ i = .high ∨ (∃ n, i = .scd n) ∨ ∃ x y n, i = .drw x y n) ∧
    (t.mode ≠ s.mode → i = .low ∨ i = .high)

/-- R42, R47: a step changes DT only in FX15, ST only in FX18, the flag storage only in FX75. -/
def Obligations.TimerAndFlagStorageWriters : Prop :=
  ∀ s t : State, step s = .next t →
    (t.DT ≠ s.DT → ∃ x, decode (s.mem.readWord s.pc.toNat) = .ok (.ldDtVx x)) ∧
    (t.ST ≠ s.ST → ∃ x, decode (s.mem.readWord s.pc.toNat) = .ok (.ldStVx x)) ∧
    (t.rpl ≠ s.rpl → ∃ x, decode (s.mem.readWord s.pc.toNat) = .ok (.ldRVx x))

/-- R34: which instructions change I; FX55 and FX65 only with the option set. -/
def Obligations.IndexWriters : Prop :=
  ∀ (i : Instr) (s t : State), exec i s = .next t → t.I ≠ s.I →
    (∃ a, i = .ldI a) ∨ (∃ x, i = .addIVx x ∨ i = .ldFVx x) ∨
    (s.cfg.loadStoreIncrementsI = true ∧ ∃ x, i = .ldMemVx x ∨ i = .ldVxMem x)

/-- R32: which instructions change VF, as a flag or as an ordinary destination. -/
def Obligations.VFWriters : Prop :=
  ∀ s t : State, step s = .next t → t.readV 0xF ≠ s.readV 0xF →
    s.run = .waitingForKey 0xF ∨
    ∃ i, s.run = .running ∧ decode (s.mem.readWord s.pc.toNat) = .ok i ∧
      ((∃ x y, i = .addReg x y ∨ i = .sub x y ∨ i = .shr x y ∨ i = .subn x y ∨ i = .shl x y) ∨
       (∃ x y n, i = .drw x y n) ∨
       (∃ nn, i = .ldImm 0xF nn ∨ i = .addImm 0xF nn ∨ i = .rnd 0xF nn) ∨
       (∃ y, i = .ldReg 0xF y ∨ i = .or 0xF y ∨ i = .and 0xF y ∨ i = .xor 0xF y) ∨
       i = .ldVxDt 0xF ∨ i = .ldVxMem 0xF)

/-- R274: the latch is cleared exactly by entering an FX0A wait, by completing it, and by a load. -/
def Obligations.LatchIsClearedExactly : Prop :=
  ∀ (e : Event) (s t : State), transition e s = .next t →
    ((∃ k : Fin 16, s.latch[k] = true ∧ t.latch[k] = false) → ClearsTheLatch e s t) ∧
    (ClearsTheLatch e s t → ∀ k : Fin 16, t.latch[k] = false)

/-! ### Register and arithmetic instructions (42_alu.md) -/

/-- R180, R181, and 8XY0, whose meaning the spec supplies from general knowledge (R182), PRESUMED in log 19. -/
def Obligations.ImmediateAndCopy : Prop :=
  (∀ (s : State) (x y : Nibble) (nn : Byte),
    WritesRegister (.ldImm x nn) s x nn.toNat ∧
    WritesRegister (.addImm x nn) s x (((s.readV x).toNat + nn.toNat) % 256) ∧
    WritesRegister (.ldReg x y) s x (s.readV y).toNat) ∧
  EncodedBy 0xF000 0x6000 (fun op => .ldImm (opX op) (opNN op)) ∧
  EncodedBy 0xF000 0x7000 (fun op => .addImm (opX op) (opNN op)) ∧
  EncodedBy 0xF00F 0x8000 (fun op => .ldReg (opX op) (opY op))

/-- R183, R184, R185, R188: bit by bit, and VF is unchanged unless it is the destination. That OR, AND and XOR have the
minor numbers 1, 2 and 3 is the spec's general knowledge (R107, 93_implementation_defined.md G5), PRESUMED in log 19. -/
def Obligations.LogicalOperations : Prop :=
  (∀ (s : State) (x y : Nibble),
    WritesRegister (.or x y) s x (s.readV x ||| s.readV y).toNat ∧
    WritesRegister (.and x y) s x (s.readV x &&& s.readV y).toNat ∧
    WritesRegister (.xor x y) s x (s.readV x ^^^ s.readV y).toNat) ∧
  EncodedBy 0xF00F 0x8001 (fun op => .or (opX op) (opY op)) ∧
  EncodedBy 0xF00F 0x8002 (fun op => .and (opX op) (opY op)) ∧
  EncodedBy 0xF00F 0x8003 (fun op => .xor (opX op) (opY op))

/-- R186, with the flag last and from the old operands (R140, R141). -/
def Obligations.AddSetsCarry : Prop :=
  (∀ (s : State) (x y : Nibble),
    WritesResultAndFlag (.addReg x y) s x (((s.readV x).toNat + (s.readV y).toNat) % 256)
      (if 255 < (s.readV x).toNat + (s.readV y).toNat then 1 else 0)) ∧
  EncodedBy 0xF00F 0x8004 (fun op => .addReg (opX op) (opY op))

/-- R187, and 8XY7, whose meaning the spec supplies from general knowledge (R193), PRESUMED in log 19: the difference
modulo 256, and NOT borrow. -/
def Obligations.SubtractSetsNotBorrow : Prop :=
  (∀ (s : State) (x y : Nibble),
    WritesResultAndFlag (.sub x y) s x ((256 + (s.readV x).toNat - (s.readV y).toNat) % 256)
      (if (s.readV y).toNat ≤ (s.readV x).toNat then 1 else 0) ∧
    WritesResultAndFlag (.subn x y) s x ((256 + (s.readV y).toNat - (s.readV x).toNat) % 256)
      (if (s.readV x).toNat ≤ (s.readV y).toNat then 1 else 0)) ∧
  EncodedBy 0xF00F 0x8005 (fun op => .sub (opX op) (opY op)) ∧
  EncodedBy 0xF00F 0x8007 (fun op => .subn (opX op) (opY op))

/-- R189, R192, R194: VY is shifted if the option is set, else VX; the result goes to VX, the bit shifted out to VF. That
SHR and SHL have the minor numbers 6 and E is the spec's general knowledge (R107, 93_implementation_defined.md G5),
PRESUMED in log 19. -/
def Obligations.ShiftsFollowTheOption : Prop :=
  (∀ (s : State) (x y : Nibble) (src : Nat),
    src = (if s.cfg.shiftUsesVy = true then s.readV y else s.readV x).toNat →
    WritesResultAndFlag (.shr x y) s x (src / 2) (src % 2) ∧
    WritesResultAndFlag (.shl x y) s x (src * 2 % 256) (src / 128)) ∧
  EncodedBy 0xF00F 0x8006 (fun op => .shr (opX op) (opY op)) ∧
  EncodedBy 0xF00F 0x800E (fun op => .shl (opX op) (opY op))

/-- R195: a free byte, masked. The draw is the model's `Config.rand` of its counter (log 5). -/
def Obligations.RandomIsMasked : Prop :=
  (∀ (s : State) (x : Nibble) (nn : Byte),
    ∃ t, exec (.rnd x nn) s = .next t ∧ t.readV x = Config.rand s.draws &&& nn ∧
      (∀ z, z ≠ x → t.readV z = s.readV z) ∧
      t = { s with V := t.V, pc := s.pc + 2, draws := s.draws + 1 }) ∧
  EncodedBy 0xF000 0xC000 (fun op => .rnd (opX op) (opNN op))

/-! ### Control transfer (41_control_flow.md) -/

/-- R151, R153: NNN + V0 is not reduced to 12 bits. -/
def Obligations.JumpsSetThePc : Prop :=
  (∀ (s : State) (nnn : Word), exec (.jp nnn) s = .next { s with pc := nnn }) ∧
  (∀ (s : State) (nnn : Word), nnn ≤ 0xFFF#16 → ∃ t, exec (.jpV0 nnn) s = .next t ∧
    t.pc.toNat = nnn.toNat + (s.readV 0).toNat ∧ t = { s with pc := t.pc }) ∧
  EncodedBy 0xF000 0x1000 (fun op => .jp (opNNN op)) ∧
  EncodedBy 0xF000 0xB000 (fun op => .jpV0 (opNNN op))

/-- R152, with push of R40: the address of the next instruction is pushed, or StackOverflow is raised. -/
def Obligations.CallPushesTheReturnAddress : Prop :=
  (∀ (s : State) (nnn : Word) (h : s.sp.toNat < 16), ∃ t, exec (.call nnn) s = .next t ∧ t.pc = nnn ∧
    t.sp.toNat = s.sp.toNat + 1 ∧ t.stack[s.sp.toNat] = s.pc + 2 ∧
    (∀ k : Fin 16, k.val ≠ s.sp.toNat → t.stack[k] = s.stack[k]) ∧
    t = { s with pc := t.pc, sp := t.sp, stack := t.stack }) ∧
  (∀ (s : State) (nnn : Word), s.sp = 16#8 → Raises (exec (.call nnn) s) s .stackOverflow) ∧
  EncodedBy 0xF000 0x2000 (fun op => .call (opNNN op))

/-- R150, with pop of R41: the top entry goes to pc and is not cleared, or StackUnderflow is raised. -/
def Obligations.ReturnPopsTheStack : Prop :=
  (∀ (s : State) (h : s.sp.toNat - 1 < 16), 0 < s.sp.toNat → ∃ t, exec .ret s = .next t ∧
    t.pc = s.stack[s.sp.toNat - 1] ∧ t.sp.toNat = s.sp.toNat - 1 ∧ t = { s with pc := t.pc, sp := t.sp }) ∧
  (∀ s : State, s.sp = 0#8 → Raises (exec .ret s) s .stackUnderflow) ∧
  decode 0x00EE = .ok .ret

/-- R159: a return matches its call, whatever the callee did that left the depth and the entry as the call did. -/
def Obligations.CallThenReturn : Prop :=
  ∀ (s t u : State) (nnn : Word) (h : s.sp.toNat < 16), exec (.call nnn) s = .next t →
    u.sp = t.sp → u.stack[s.sp.toNat] = t.stack[s.sp.toNat] →
    exec .ret u = .next { u with pc := s.pc + 2, sp := s.sp }

/-- R303: sixteen calls in a row succeed, the seventeenth raises StackOverflow. -/
def Obligations.SeventeenthCallOverflows : Prop :=
  ∀ (s : State) (targets : List Word) (last : Word), s.sp = 0#8 → targets.length = 16 →
    ∃ t, callAll targets s = .next t ∧ t.sp = 16#8 ∧ t.run = s.run ∧ Raises (exec (.call last) t) t .stackOverflow

/-- R136, R154, R155, and 5XY0 and 9XY0, which the spec supplies from general knowledge (R156, R157), PRESUMED in
log 19: the register skips. -/
def Obligations.RegisterSkips : Prop :=
  (∀ (s : State) (x y : Nibble) (nn : Byte),
    SkipsIf (.seImm x nn) s (s.readV x = nn) ∧ SkipsIf (.sneImm x nn) s (s.readV x ≠ nn) ∧
    SkipsIf (.seReg x y) s (s.readV x = s.readV y) ∧ SkipsIf (.sneReg x y) s (s.readV x ≠ s.readV y)) ∧
  EncodedBy 0xF000 0x3000 (fun op => .seImm (opX op) (opNN op)) ∧
  EncodedBy 0xF000 0x4000 (fun op => .sneImm (opX op) (opNN op)) ∧
  EncodedBy 0xF00F 0x5000 (fun op => .seReg (opX op) (opY op)) ∧
  EncodedBy 0xF00F 0x9000 (fun op => .sneReg (opX op) (opY op))

/-! ### Index register, loads and stores (43_index_memory.md) -/

/-- R210, R211, R212: only I and the pc are written; a VX that is no digit is refused. -/
def Obligations.SettingTheIndex : Prop :=
  (∀ (s : State) (x : Nibble) (nnn : Word),
    exec (.ldI nnn) s = .next { s with I := nnn, pc := s.pc + 2 } ∧
    (∃ t, exec (.addIVx x) s = .next t ∧ t.I.toNat = (s.I.toNat + (s.readV x).toNat) % 65536 ∧
      t = { s with I := t.I, pc := s.pc + 2 }) ∧
    ((s.readV x).toNat ≤ 0xF → ∃ t, exec (.ldFVx x) s = .next t ∧ t.I.toNat = 5 * (s.readV x).toNat ∧
      t = { s with I := t.I, pc := s.pc + 2 }) ∧
    (0xF < (s.readV x).toNat → exec (.ldFVx x) s = .refused (.fontDigitOutOfRange s.pc))) ∧
  EncodedBy 0xF000 0xA000 (fun op => .ldI (opNNN op)) ∧
  EncodedBy 0xF0FF 0xF01E (fun op => .addIVx (opX op)) ∧
  EncodedBy 0xF0FF 0xF029 (fun op => .ldFVx (opX op))

/-- R213: the three digits at I, I + 1, I + 2, every other byte of memory as before; or AddressOutOfBounds. -/
def Obligations.BcdStoresThreeDigits : Prop :=
  (∀ (s : State) (x : Nibble), s.I.toNat + 2 ≤ 0xFFF → ∃ t, exec (.ldBVx x) s = .next t ∧
    (t.mem.read s.I.toNat).toNat = (s.readV x).toNat / 100 ∧
    (t.mem.read (s.I.toNat + 1)).toNat = (s.readV x).toNat / 10 % 10 ∧
    (t.mem.read (s.I.toNat + 2)).toNat = (s.readV x).toNat % 10 ∧
    (∀ a, a < s.I.toNat ∨ s.I.toNat + 2 < a → t.mem.read a = s.mem.read a) ∧
    t = { s with mem := t.mem, pc := s.pc + 2 }) ∧
  (∀ (s : State) (x : Nibble), 0xFFF < s.I.toNat + 2 →
    Raises (exec (.ldBVx x) s) s (.addressOutOfBounds (max s.I.toNat 0x1000))) ∧
  EncodedBy 0xF0FF 0xF033 (fun op => .ldBVx (opX op))

/-- R216: V0 to VX to I … I + X, every other byte of memory as before, I by the option; or AddressOutOfBounds. -/
def Obligations.BlockStore : Prop :=
  (∀ (s : State) (x : Nibble), s.I.toNat + x.toNat ≤ 0xFFF → ∃ t, exec (.ldMemVx x) s = .next t ∧
    (∀ k : Nibble, k.toNat ≤ x.toNat → t.mem.read (s.I.toNat + k.toNat) = s.readV k) ∧
    (∀ a, a < s.I.toNat ∨ s.I.toNat + x.toNat < a → t.mem.read a = s.mem.read a) ∧
    t.I.toNat = (if s.cfg.loadStoreIncrementsI = true then s.I.toNat + x.toNat + 1 else s.I.toNat) ∧
    t = { s with mem := t.mem, I := t.I, pc := s.pc + 2 }) ∧
  (∀ (s : State) (x : Nibble), 0xFFF < s.I.toNat + x.toNat →
    Raises (exec (.ldMemVx x) s) s (.addressOutOfBounds (max s.I.toNat 0x1000))) ∧
  EncodedBy 0xF0FF 0xF055 (fun op => .ldMemVx (opX op))

/-- R217: V0 to VX from I … I + X, every other register as before, I by the option; or AddressOutOfBounds. -/
def Obligations.BlockLoad : Prop :=
  (∀ (s : State) (x : Nibble), s.I.toNat + x.toNat ≤ 0xFFF → ∃ t, exec (.ldVxMem x) s = .next t ∧
    (∀ k : Nibble, k.toNat ≤ x.toNat → t.readV k = s.mem.read (s.I.toNat + k.toNat)) ∧
    (∀ k : Nibble, x.toNat < k.toNat → t.readV k = s.readV k) ∧
    t.I.toNat = (if s.cfg.loadStoreIncrementsI = true then s.I.toNat + x.toNat + 1 else s.I.toNat) ∧
    t = { s with V := t.V, I := t.I, pc := s.pc + 2 }) ∧
  (∀ (s : State) (x : Nibble), 0xFFF < s.I.toNat + x.toNat →
    Raises (exec (.ldVxMem x) s) s (.addressOutOfBounds (max s.I.toNat 0x1000))) ∧
  EncodedBy 0xF0FF 0xF065 (fun op => .ldVxMem (opX op))

/-- R216, R217: a block stored and then loaded from the same I, from a memory nobody wrote in between, comes back. -/
def Obligations.StoreThenLoadRestores : Prop :=
  ∀ (s t u v : State) (x : Nibble), s.I.toNat + x.toNat ≤ 0xFFF → exec (.ldMemVx x) s = .next t →
    u.mem = t.mem → u.I = s.I → exec (.ldVxMem x) u = .next v →
    ∀ k : Nibble, k.toNat ≤ x.toNat → v.readV k = s.readV k

/-- R218, R219: V0 to VX to the flag slots and back; X above 7 is refused. -/
def Obligations.FlagStorage : Prop :=
  (∀ (s : State) (x : Nibble), x.toNat ≤ 7 →
    (∃ t, exec (.ldRVx x) s = .next t ∧
      (∀ k : Fin 8, (k.val ≤ x.toNat → t.rpl[k] = s.readV (BitVec.ofNat 4 k)) ∧
        (x.toNat < k.val → t.rpl[k] = s.rpl[k])) ∧
      t = { s with rpl := t.rpl, pc := s.pc + 2 }) ∧
    (∃ t, exec (.ldVxR x) s = .next t ∧
      (∀ k : Fin 8, k.val ≤ x.toNat → t.readV (BitVec.ofNat 4 k) = s.rpl[k]) ∧
      (∀ k : Nibble, x.toNat < k.toNat → t.readV k = s.readV k) ∧
      t = { s with V := t.V, pc := s.pc + 2 })) ∧
  (∀ (s : State) (x : Nibble), 7 < x.toNat →
    exec (.ldRVx x) s = .refused (.rplSlotOutOfRange s.pc) ∧
    exec (.ldVxR x) s = .refused (.rplSlotOutOfRange s.pc)) ∧
  EncodedBy 0xF0FF 0xF075 (fun op => .ldRVx (opX op)) ∧
  EncodedBy 0xF0FF 0xF085 (fun op => .ldVxR (opX op))

/-- R91: a block store over the next opcode is what the next step executes. -/
def Obligations.StoredOpcodeIsExecutedNext : Prop :=
  ∀ (s : State) (x : Nibble) (i : Instr), s.run = .running → s.pc.toNat + 3 ≤ 0xFFF →
    decode (s.mem.readWord s.pc.toNat) = .ok (.ldMemVx x) → 1 ≤ x.toNat → s.I = s.pc + 2 →
    s.I.toNat + x.toNat ≤ 0xFFF → decode (s.readV 0 ++ s.readV 1) = .ok i →
    ∃ t, step s = .next t ∧ t.pc = s.pc + 2 ∧ step t = exec i t

/-! ### Display (44_display.md) -/

/-- R247, R248: pixels after a clear and after a scroll. The word 00CN of the scroll is the spec's general knowledge
(R251), PRESUMED in log 19. -/
def Obligations.ClearAndScroll : Prop :=
  (∀ s : State, ∃ t, exec .cls s = .next t ∧ (∀ px py, t.pixel px py = false) ∧
    t = { s with fb := t.fb, pc := s.pc + 2 }) ∧
  (∀ (s : State) (n : Nibble), ∃ t, exec (.scd n) s = .next t ∧
    (∀ px py, px < s.mode.width → py < s.mode.height →
      t.pixel px py = (if n.toNat ≤ py then s.pixel px (py - n.toNat) else false)) ∧
    t = { s with fb := t.fb, pc := s.pc + 2 }) ∧
  decode 0x00E0 = .ok .cls ∧ EncodedBy 0xFFF0 0x00C0 (fun op => .scd (opN op))

/-- R242, R252, R253: the mode is set; in the mode already active nothing else changes; otherwise the grid has the
new size, its pixels being free (the model's `Config.modeSwitchGrid` of its counter, log 6).
Which of the two words sets which mode is the spec's general knowledge (R252, R253), PRESUMED in log 19. -/
def Obligations.SettingTheMode : Prop :=
  (∀ (i : Instr) (m : Mode) (s : State), (i = .low ∧ m = .base) ∨ (i = .high ∧ m = .extended) →
    (s.mode = m → exec i s = .next { s with pc := s.pc + 2 }) ∧
    (s.mode ≠ m → ∃ t, exec i s = .next t ∧ t.mode = m ∧ gridWf m t.fb ∧
      (∀ px py, px < m.width → py < m.height →
        t.pixel px py = pixelAt (Config.modeSwitchGrid s.draws) px py) ∧
      t = { s with mode := t.mode, fb := t.fb, pc := s.pc + 2, draws := s.draws + 1 })) ∧
  decode 0x00FE = .ok .low ∧ decode 0x00FF = .ok .high

/-- R249 (with R243 to R246): refused, out of bounds, or drawn. A draw flips exactly the pixels its set bits land on,
VF is 1 exactly if one of them was 1, and nothing but the grid, VF and the pc is changed.
Which bit of the sprite falls on which pixel (`spriteBitAt`) is the spec's general knowledge (R244, R245, D22),
PRESUMED in log 19. -/
def Obligations.DrawFlipsExactlyTheSprite : Prop :=
  (∀ (s : State) (x y n : Nibble),
    (n = 0 → s.mode = .base → exec (.drw x y n) s = .refused (.spriteHeightZero s.pc)) ∧
    (n ≠ 0 ∨ s.mode = .extended → 0x1000 < s.I.toNat + spriteBytes n →
      Raises (exec (.drw x y n) s) s (.addressOutOfBounds (max s.I.toNat 0x1000))) ∧
    (DrawAllowed s n → ∃ t, exec (.drw x y n) s = .next t ∧
      (∀ px py, px < s.mode.width → py < s.mode.height →
        (Touches s x y n px py → t.pixel px py = !s.pixel px py) ∧
        (¬ Touches s x y n px py → t.pixel px py = s.pixel px py)) ∧
      ((∃ px py, Touches s x y n px py ∧ s.pixel px py = true) → t.readV 0xF = 1) ∧
      ((∀ px py, Touches s x y n px py → s.pixel px py = false) → t.readV 0xF = 0) ∧
      (∀ z, z ≠ 0xF → t.readV z = s.readV z) ∧
      t = { s with fb := t.fb, V := t.V, pc := s.pc + 2 })) ∧
  EncodedBy 0xF000 0xD000 (fun op => .drw (opX op) (opY op) (opN op))

/-- R254: the same sprite drawn again at the same place restores every pixel, and the second flag is 1 exactly if a
set bit fell on a pixel that was 0 before the first draw. Which pixels the set bits fall on (`Touches`) rests on the bit
order of a row and the layout of a big sprite, the spec's general knowledge (R244, R245, 93_implementation_defined.md
G7, G8), PRESUMED in log 19. -/
def Obligations.DrawTwiceRestores : Prop :=
  ∀ (s t u : State) (x y x' y' n : Nibble), DrawAllowed s n → exec (.drw x y n) s = .next t →
    u.fb = t.fb → u.mode = s.mode → u.mem = s.mem → u.I = s.I → u.readV x' = s.readV x → u.readV y' = s.readV y →
    ∃ v, exec (.drw x' y' n) u = .next v ∧ (∀ px py, v.pixel px py = s.pixel px py) ∧
      (v.readV 0xF = 1 ↔ ∃ px py, Touches s x y n px py ∧ s.pixel px py = false)

/-! ### Keypad and timers (45_keypad_timers.md) -/

/-- R280, R281: the level is read; a VX that names no key is refused. -/
def Obligations.KeySkips : Prop :=
  (∀ (s : State) (x k : Nibble), (s.readV x).toNat = k.toNat →
    SkipsIf (.skp x) s (s.keys[k.toNat]'(k.isLt) = true) ∧
    SkipsIf (.sknp x) s (s.keys[k.toNat]'(k.isLt) = false)) ∧
  (∀ (s : State) (x : Nibble), 0xF < (s.readV x).toNat →
    exec (.skp x) s = .refused (.keyIndexOutOfRange s.pc) ∧
    exec (.sknp x) s = .refused (.keyIndexOutOfRange s.pc)) ∧
  EncodedBy 0xF0FF 0xE09E (fun op => .skp (opX op)) ∧
  EncodedBy 0xF0FF 0xE0A1 (fun op => .sknp (opX op))

/-- R282: the wait begins, the latch is cleared, and the pc and every register stay. -/
def Obligations.KeyWaitBegins : Prop :=
  (∀ (s : State) (x : Nibble), ∃ t, exec (.ldVxK x) s = .next t ∧ t.run = .waitingForKey x ∧ t.pc = s.pc ∧
    (∀ k : Fin 16, t.latch[k] = false) ∧ t.status = .stillWaiting ∧ t = { s with latch := t.latch, run := t.run }) ∧
  EncodedBy 0xF0FF 0xF00A (fun op => .ldVxK (opX op))

/-- R283: with no latched key nothing changes; with one or more, one of them is reported (any of them, for some
choice), and the wait ends. -/
def Obligations.KeyWaitEndsOnALatchedKey : Prop :=
  (∀ (s : State) (x : Nibble), s.run = .waitingForKey x → (∀ k : Fin 16, s.latch[k] = false) →
    step s = .next s ∧ s.status = .stillWaiting) ∧
  (∀ (s : State) (x k : Nibble), s.run = .waitingForKey x → s.latch[k.toNat]'(k.isLt) = true →
    (∃ (t : State) (j : Nibble), step s = .next t ∧ s.latch[j.toNat]'(j.isLt) = true ∧ (t.readV x).toNat = j.toNat ∧
      (∀ z, z ≠ x → t.readV z = s.readV z) ∧ (∀ k : Fin 16, t.latch[k] = false) ∧ t.run = .running ∧
      t.status = .ok ∧ t = { s with V := t.V, latch := t.latch, run := t.run, pc := s.pc + 2, draws := t.draws }) ∧
    ∃ c, chooseFrom c s.latchedKeys = some k)

/-- R272, R283: after a single press the wait reports exactly that key. -/
def Obligations.KeyPressEndsTheWait : Prop :=
  ∀ (s : State) (x k : Nibble), s.run = .waitingForKey x → s.latch = noKeys → s.keys[k.toNat]'(k.isLt) = false →
    ∃ t, step (setKey k true s) = .next t ∧ (t.readV x).toNat = k.toNat ∧ t.run = .running ∧ t.pc = s.pc + 2

/-- R283, R344: without a press the wait lasts through any steps, ticks and releases. -/
def Obligations.WaitLastsWithoutAPress : Prop :=
  ∀ (events : List Event) (s : State) (x : Nibble), s.run = .waitingForKey x → s.latch = noKeys →
    (∀ e ∈ events, e = .step ∨ e = .tick ∨ ∃ k, e = .setKey k false) →
    ∃ t, runSchedule events s = .next t ∧ t.run = .waitingForKey x ∧ t.pc = s.pc ∧ t.V = s.V

/-- R284, R285, R286: a timer is read or set; as many ticks as were set bring DT to 0; a nonzero ST is heard. -/
def Obligations.TimerInstructions : Prop :=
  (∀ (s : State) (x : Nibble),
    WritesRegister (.ldVxDt x) s x s.DT.toNat ∧
    exec (.ldDtVx x) s = .next { s with DT := s.readV x, pc := s.pc + 2 } ∧
    exec (.ldStVx x) s = .next { s with ST := s.readV x, pc := s.pc + 2 } ∧
    (∀ t, exec (.ldDtVx x) s = .next t → (tick^[(s.readV x).toNat] t).DT = 0) ∧
    (∀ t, exec (.ldStVx x) s = .next t → (t.isSoundActive = true ↔ s.readV x ≠ 0))) ∧
  EncodedBy 0xF0FF 0xF007 (fun op => .ldVxDt (opX op)) ∧
  EncodedBy 0xF0FF 0xF015 (fun op => .ldDtVx (opX op)) ∧
  EncodedBy 0xF0FF 0xF018 (fun op => .ldStVx (opX op))

/-- R276 (and R285's countdown): n ticks take n off each timer, never below 0, in every run state, and change nothing
else. That a tick counts down in Halted too is "the spec's choice" (R277, D14). -/
def Obligations.TicksCountDown : Prop :=
  ∀ (n : Nat) (s : State), (tick^[n] s).DT.toNat = s.DT.toNat - n ∧ (tick^[n] s).ST.toNat = s.ST.toNat - n ∧
    tick^[n] s = { s with DT := (tick^[n] s).DT, ST := (tick^[n] s).ST }

/-- R272: a press is latched exactly if the key was released; a release clears no latch. -/
def Obligations.SetKeyLatchesAPress : Prop :=
  ∀ (s : State) (k : Nibble) (p : Bool),
    (setKey k p s).keys[k.toNat]'(k.isLt) = p ∧
    (setKey k p s).latch[k.toNat]'(k.isLt) =
      ((p && !s.keys[k.toNat]'(k.isLt)) || s.latch[k.toNat]'(k.isLt)) ∧
    (∀ j : Nibble, j ≠ k → (setKey k p s).keys[j.toNat]'(j.isLt) = s.keys[j.toNat]'(j.isLt) ∧
      (setKey k p s).latch[j.toNat]'(j.isLt) = s.latch[j.toNat]'(j.isLt)) ∧
    setKey k p s = { s with keys := (setKey k p s).keys, latch := (setKey k p s).latch }

/-! ### Reset and the end of a run (70_reset_and_hazards.md) -/

/-- R331 to R337: what a load leaves, for every image, every `mem_init` and every contents of the stack. That
`extended_mode_default` is the mode after reset is no sentence of the document: R332 says 'the spec reads it as the reset
mode' (90_conflicts.md C7, 92_eei_decisions.md D20). -/
def Obligations.LoadResetsTheMachine : Prop :=
  ∀ (s t : State) (bytes : List Byte) (inputs : LoadInputs), t = load bytes inputs s →
    ((∀ x, t.readV x = 0) ∧ t.I = 0 ∧ t.pc = 0x200 ∧ t.sp = 0 ∧ t.DT = 0 ∧ t.ST = 0 ∧
      t.mode = (if s.cfg.extendedModeDefault = true then .extended else .base) ∧
      (∀ px py, t.pixel px py = false) ∧ (∀ k : Fin 16, t.latch[k] = false) ∧
      t.keys = s.keys ∧ t.rpl = s.rpl ∧ (∀ k : Fin 80, t.mem.read k = s.cfg.font[k])) ∧
    (bytes.length ≤ 3584 → t.run = .running ∧
      (∀ (k : Nat) (h : k < bytes.length), t.mem.read (0x200 + k) = bytes[k]) ∧
      (∀ a, 80 ≤ a → a < 0x200 ∨ 0x200 + bytes.length ≤ a → t.mem.read a = inputs.memInit.read a)) ∧
    (3584 < bytes.length → t.run = .halted { error := .addressOutOfBounds 0x1000, pc := 0x200 } ∧
      (∀ a, 80 ≤ a → t.mem.read a = inputs.memInit.read a))

/-- R330: creation releases the keys, clears the flag storage, and else is a load of an empty image. That the flag
storage is 0 at creation is the spec's decision D18 ('At creation the spec sets'); the mode that the load leaves is the
spec's reading (R332, D20). -/
def Obligations.CreationIsAnEmptyLoad : Prop :=
  ∀ (s t : State) (inputs : LoadInputs), t = create s.cfg inputs →
    (∀ k : Fin 16, t.keys[k] = false) ∧ (∀ k : Fin 8, t.rpl[k] = 0) ∧
    t = { load [] inputs s with keys := t.keys, rpl := t.rpl, draws := t.draws }

/-- R53: the values reset leaves; the memory outside the font, the stack entries and the counter of draws are the
model's choice (log 2, log 4, log 5), the default configuration and font are R11's and R86's (log 3, log 18). -/
def Obligations.ResetStateIsCreation : Prop :=
  State.reset = create defaultCfg { memInit := [], stackInit := Vector.replicate 16 0 } ∧
  State.reset.pc = 0x200 ∧ State.reset.mode = .base ∧ State.reset.run = .running ∧
  (∀ a, a < 80 → State.reset.mem.read a = defaultFont.toList.getD a 0)

/-- R151, R346: a final state is a stable loop: steps leave it as it is. -/
def Obligations.FinalStateIsStable : Prop :=
  ∀ (s : State) (endPc : Word) (n : Nat), s.isFinal endPc → Sys2Proof.core.run n s = .next s
end

