-- ==== Sys2Proof/Laws/Decode.lean ====
section
/-! SUPPORT. The fields of an opcode word, of an encoded instruction, and under the masks of the opcode table. -/

namespace Sys2Proof

/-! ### The fields of the encoder's formats (spec/30_encoding.md R101, R102) -/

@[simp] theorem opMajor_encodeAddr (a : Nibble) (nnn : Word) : opMajor (encodeAddr a nnn) = a := by
  apply BitVec.eq_of_getLsbD_eq
  intro i hi
  simp only [opMajor, encodeAddr, BitVec.getLsbD_append, BitVec.getLsbD_extractLsb']
  interval_cases i <;> simp

@[simp] theorem opNNN_encodeAddr (a : Nibble) (nnn : Word) (h : addressFits nnn) : opNNN (encodeAddr a nnn) = nnn := by
  have e : opNNN (encodeAddr a nnn) = (nnn.setWidth 12).setWidth 16 := by
    apply BitVec.eq_of_getLsbD_eq
    intro i hi
    simp only [opNNN, encodeAddr, BitVec.getLsbD_append, BitVec.getLsbD_extractLsb', BitVec.getLsbD_setWidth]
    interval_cases i <;> simp
  have hlt : nnn.toNat < 4096 := Nat.lt_succ_of_le (BitVec.le_def.1 h)
  rw [e]
  apply BitVec.eq_of_toNat_eq
  simp only [BitVec.toNat_setWidth]
  omega

@[simp] theorem opMajor_encodeXNN (a x : Nibble) (nn : Byte) : opMajor (encodeXNN a x nn) = a := by
  apply BitVec.eq_of_getLsbD_eq
  intro i hi
  simp only [opMajor, encodeXNN, BitVec.getLsbD_append, BitVec.getLsbD_extractLsb']
  interval_cases i <;> simp

@[simp] theorem opX_encodeXNN (a x : Nibble) (nn : Byte) : opX (encodeXNN a x nn) = x := by
  apply BitVec.eq_of_getLsbD_eq
  intro i hi
  simp only [opX, encodeXNN, BitVec.getLsbD_append, BitVec.getLsbD_extractLsb']
  interval_cases i <;> simp

@[simp] theorem opNN_encodeXNN (a x : Nibble) (nn : Byte) : opNN (encodeXNN a x nn) = nn := by
  apply BitVec.eq_of_getLsbD_eq
  intro i hi
  simp only [opNN, encodeXNN, BitVec.getLsbD_append, BitVec.getLsbD_extractLsb']
  interval_cases i <;> simp

@[simp] theorem opMajor_encodeXYN (a x y n : Nibble) : opMajor (encodeXYN a x y n) = a := by
  apply BitVec.eq_of_getLsbD_eq
  intro i hi
  simp only [opMajor, encodeXYN, BitVec.getLsbD_append, BitVec.getLsbD_extractLsb']
  interval_cases i <;> simp

@[simp] theorem opX_encodeXYN (a x y n : Nibble) : opX (encodeXYN a x y n) = x := by
  apply BitVec.eq_of_getLsbD_eq
  intro i hi
  simp only [opX, encodeXYN, BitVec.getLsbD_append, BitVec.getLsbD_extractLsb']
  interval_cases i <;> simp

@[simp] theorem opY_encodeXYN (a x y n : Nibble) : opY (encodeXYN a x y n) = y := by
  apply BitVec.eq_of_getLsbD_eq
  intro i hi
  simp only [opY, encodeXYN, BitVec.getLsbD_append, BitVec.getLsbD_extractLsb']
  interval_cases i <;> simp

@[simp] theorem opN_encodeXYN (a x y n : Nibble) : opN (encodeXYN a x y n) = n := by
  apply BitVec.eq_of_getLsbD_eq
  intro i hi
  simp only [opN, encodeXYN, BitVec.getLsbD_append, BitVec.getLsbD_extractLsb']
  interval_cases i <;> simp

/-! ### A word put together from its fields -/

theorem word_eq_encodeXYN (op : Word) : encodeXYN (opMajor op) (opX op) (opY op) (opN op) = op := by
  apply BitVec.eq_of_getLsbD_eq
  intro i hi
  simp only [opMajor, opX, opY, opN, encodeXYN, BitVec.getLsbD_append, BitVec.getLsbD_extractLsb']
  interval_cases i <;> simp

theorem word_eq_encodeXNN (op : Word) : encodeXNN (opMajor op) (opX op) (opNN op) = op := by
  apply BitVec.eq_of_getLsbD_eq
  intro i hi
  simp only [opMajor, opX, opNN, encodeXNN, BitVec.getLsbD_append, BitVec.getLsbD_extractLsb']
  interval_cases i <;> simp

theorem word_eq_encodeAddr (op : Word) : encodeAddr (opMajor op) (opNNN op) = op := by
  apply BitVec.eq_of_getLsbD_eq
  intro i hi
  simp only [opMajor, opNNN, encodeAddr, BitVec.getLsbD_append, BitVec.getLsbD_extractLsb', BitVec.getLsbD_setWidth]
  interval_cases i <;> simp

theorem word_eq_append_opN (op : Word) : op.extractLsb' 4 12 ++ opN op = op := by
  apply BitVec.eq_of_getLsbD_eq
  intro i hi
  simp only [opN, BitVec.getLsbD_append, BitVec.getLsbD_extractLsb']
  interval_cases i <;> simp

/-- The decoder's NNN always fits its field (R103). -/
theorem addressFits_opNNN (op : Word) : addressFits (opNNN op) := by
  have : (opNNN op).toNat < 4096 := by
    simp only [opNNN, BitVec.toNat_setWidth]
    exact Nat.lt_of_le_of_lt (Nat.mod_le _ _) (op.extractLsb' 0 12).isLt
  rw [addressFits, BitVec.le_def]
  exact Nat.le_of_lt_succ this

/-! ### The masks of the opcode table (R134) -/

theorem and_F000 (op : Word) : op &&& 0xF000#16 = opMajor op ++ 0#12 := by
  apply BitVec.eq_of_getLsbD_eq
  intro i hi
  simp only [opMajor, BitVec.getLsbD_append, BitVec.getLsbD_extractLsb', BitVec.getLsbD_and]
  interval_cases i <;> simp

theorem and_F00F (op : Word) : op &&& 0xF00F#16 = opMajor op ++ 0#8 ++ opN op := by
  apply BitVec.eq_of_getLsbD_eq
  intro i hi
  simp only [opMajor, opN, BitVec.getLsbD_append, BitVec.getLsbD_extractLsb', BitVec.getLsbD_and]
  interval_cases i <;> simp

theorem and_F0FF (op : Word) : op &&& 0xF0FF#16 = opMajor op ++ 0#4 ++ opNN op := by
  apply BitVec.eq_of_getLsbD_eq
  intro i hi
  simp only [opMajor, opNN, BitVec.getLsbD_append, BitVec.getLsbD_extractLsb', BitVec.getLsbD_and]
  interval_cases i <;> simp

theorem and_FFF0 (op : Word) : op &&& 0xFFF0#16 = op.extractLsb' 4 12 ++ 0#4 := by
  apply BitVec.eq_of_getLsbD_eq
  intro i hi
  simp only [BitVec.getLsbD_append, BitVec.getLsbD_extractLsb', BitVec.getLsbD_and]
  interval_cases i <;> simp

theorem and_FFFF (op : Word) : op &&& 0xFFFF#16 = op := by
  have : (0xFFFF#16 : Word) = BitVec.allOnes 16 := by decide
  rw [this, BitVec.and_allOnes]

/-! ### The fields of a word that a row of the opcode table selects -/

theorem opMajor_of_and_F000 {op value : Word} (h : op &&& 0xF000#16 = value) : opMajor op = opMajor value := by
  rw [← h, and_F000]
  apply BitVec.eq_of_getLsbD_eq
  intro i hi
  simp only [opMajor, BitVec.getLsbD_append, BitVec.getLsbD_extractLsb']
  interval_cases i <;> simp

theorem fields_of_and_F00F {op value : Word} (h : op &&& 0xF00F#16 = value) :
    opMajor op = opMajor value ∧ opN op = opN value := by
  rw [← h, and_F00F]
  constructor <;> apply BitVec.eq_of_getLsbD_eq <;> intro i hi <;>
    simp only [opMajor, opN, BitVec.getLsbD_append, BitVec.getLsbD_extractLsb'] <;> interval_cases i <;> simp

theorem fields_of_and_F0FF {op value : Word} (h : op &&& 0xF0FF#16 = value) :
    opMajor op = opMajor value ∧ opNN op = opNN value := by
  rw [← h, and_F0FF]
  constructor <;> apply BitVec.eq_of_getLsbD_eq <;> intro i hi <;>
    simp only [opMajor, opNN, BitVec.getLsbD_append, BitVec.getLsbD_extractLsb'] <;> interval_cases i <;> simp

theorem fields_of_and_FFF0 {op value : Word} (h : op &&& 0xFFF0#16 = value) :
    opMajor op = opMajor value ∧ op.extractLsb' 4 12 = value.extractLsb' 4 12 := by
  rw [← h, and_FFF0]
  constructor <;> apply BitVec.eq_of_getLsbD_eq <;> intro i hi <;>
    simp only [opMajor, BitVec.getLsbD_append, BitVec.getLsbD_extractLsb'] <;> interval_cases i <;> simp

end Sys2Proof
end

