-- ==== Sys2Proof/Laws/Memory.lean ====
section
/-! SUPPORT. The laws of memory (spec/20_memory.md R74, R82): a read gives the byte last written, a write leaves every
other address alone, and every operation keeps the canonical form. -/

namespace Sys2Proof.Machine

/-! ### The parts of a write -/

theorem Memory.read_of_not_listed {m : Memory} {a : Nat} (h : ∀ c ∈ m, c.1 ≠ a) :
    m.read a = Memory.unlisted a := by
  induction m with
  | nil => rfl
  | cons c m ih =>
    obtain ⟨b, v⟩ := c
    have hb : b ≠ a := h (b, v) (by simp)
    simp only [Memory.read, hb, if_false]
    exact ih fun c hc => h c (by simp [hc])

theorem Memory.not_listed_erase (m : Memory) (a : Nat) : ∀ c ∈ m.erase a, c.1 ≠ a := by
  intro c hc
  simpa using (List.mem_filter.1 hc).2

theorem Memory.read_erase_same (m : Memory) (a : Nat) : (m.erase a).read a = Memory.unlisted a :=
  Memory.read_of_not_listed (m.not_listed_erase a)

theorem Memory.read_erase_ne (m : Memory) {a b : Nat} (h : b ≠ a) : (m.erase a).read b = m.read b := by
  induction m with
  | nil => rfl
  | cons c m ih =>
    obtain ⟨k, v⟩ := c
    by_cases hk : k = a
    · have hkb : k ≠ b := fun e => h (e ▸ hk)
      have : Memory.erase ((k, v) :: m) a = Memory.erase m a := by simp [Memory.erase, hk]
      rw [this, ih]
      simp [Memory.read, hkb]
    · have : Memory.erase ((k, v) :: m) a = (k, v) :: Memory.erase m a := by simp [Memory.erase, hk]
      rw [this]
      simp only [Memory.read, ih]

theorem Memory.read_insert_ne (m : Memory) {a b : Nat} (v : Byte) (h : b ≠ a) :
    (m.insert a v).read b = m.read b := by
  induction m with
  | nil => simp [Memory.insert, Memory.read, h.symm]
  | cons c m ih =>
    simp only [Memory.insert]
    split
    · simp [Memory.read, h.symm]
    · simp [Memory.read, ih]

theorem Memory.read_insert_same {m : Memory} {a : Nat} (v : Byte) (h : ∀ c ∈ m, c.1 ≠ a) :
    (m.insert a v).read a = v := by
  induction m with
  | nil => simp [Memory.insert, Memory.read]
  | cons c m ih =>
    simp only [Memory.insert]
    split
    · simp [Memory.read]
    · have hc : c.1 ≠ a := h c (by simp)
      simp only [Memory.read, hc, if_false]
      exact ih fun d hd => h d (by simp [hd])

/-! ### Reading after a write -/

/-- The byte written is the byte read, and every other address reads as before. -/
theorem Memory.read_write (m : Memory) (a b : Nat) (v : Byte) :
    (m.write a v).read b = if b = a then v else m.read b := by
  unfold Memory.write
  by_cases h : b = a
  · subst h
    split
    · rw [Memory.read_erase_same, if_pos rfl]
      exact Eq.symm ‹_›
    · rw [Memory.read_insert_same v (m.not_listed_erase b), if_pos rfl]
  · simp only [h, if_false]
    split
    · exact m.read_erase_ne h
    · rw [Memory.read_insert_ne _ v h, m.read_erase_ne h]

/-- The bytes written are the bytes read, and every address outside them reads as before. -/
theorem Memory.read_writeBytes (m : Memory) (a b : Nat) (vs : List Byte) :
    (m.writeBytes a vs).read b =
      if h : a ≤ b ∧ b - a < vs.length then vs[b - a]'h.2 else m.read b := by
  induction vs generalizing m a with
  | nil => simp [Memory.writeBytes]
  | cons v vs ih =>
    rw [Memory.writeBytes, ih, Memory.read_write]
    by_cases hab : b = a
    · subst hab
      have : ¬ (b + 1 ≤ b ∧ b - (b + 1) < vs.length) := by omega
      rw [dif_neg this]
      simp
    · by_cases h : a + 1 ≤ b ∧ b - (a + 1) < vs.length
      · have h' : a ≤ b ∧ b - a < (v :: vs).length := by simp; omega
        rw [dif_pos h, dif_pos h']
        have e : b - a = (b - (a + 1)) + 1 := by omega
        simp [e]
      · have h' : ¬ (a ≤ b ∧ b - a < (v :: vs).length) := by simp; omega
        rw [dif_neg h, dif_neg h', if_neg hab]

theorem Memory.read_writeBytes_inside (m : Memory) (a k : Nat) (vs : List Byte) (h : k < vs.length) :
    (m.writeBytes a vs).read (a + k) = vs[k] := by
  have h' : a ≤ a + k ∧ a + k - a < vs.length := by omega
  rw [Memory.read_writeBytes, dif_pos h']
  simp

theorem Memory.read_writeBytes_outside (m : Memory) {a b : Nat} (vs : List Byte)
    (h : b < a ∨ a + vs.length ≤ b) : (m.writeBytes a vs).read b = m.read b := by
  rw [Memory.read_writeBytes, dif_neg (by omega)]

@[simp] theorem Memory.length_readBytes (m : Memory) (a n : Nat) : (m.readBytes a n).length = n := by
  simp [Memory.readBytes]

@[simp] theorem Memory.getElem_readBytes (m : Memory) (a n k : Nat) (h : k < (m.readBytes a n).length) :
    (m.readBytes a n)[k] = m.read (a + k) := by
  simp [Memory.readBytes]

/-- The high and the low byte of a word, put together again. -/
theorem wordOfBytes_bytesOfWord (op : Word) :
    wordOfBytes (op.extractLsb' 8 8) (op.extractLsb' 0 8) = op := by
  apply BitVec.eq_of_getLsbD_eq
  intro i hi
  simp only [wordOfBytes, BitVec.getLsbD_append, BitVec.getLsbD_extractLsb']
  split
  · rename_i h
    simp [h]
  · rename_i h
    have : i - 8 < 8 := by omega
    have e : 8 + (i - 8) = i := by omega
    simp [this, e]

/-- The word fetched where an opcode's two bytes were written is that opcode (R75). -/
theorem Memory.readWord_writeBytes (m : Memory) (a : Nat) (op : Word) :
    (m.writeBytes a (bytesOfWord op)).readWord a = op := by
  have h0 := m.read_writeBytes_inside a 0 (bytesOfWord op) (by simp [bytesOfWord])
  have h1 := m.read_writeBytes_inside a 1 (bytesOfWord op) (by simp [bytesOfWord])
  simp only [Nat.add_zero] at h0
  unfold Memory.readWord
  rw [h0, h1]
  exact wordOfBytes_bytesOfWord op

/-! ### The canonical form -/

theorem Memory.wf_nil : Memory.wf [] := by simp [Memory.wf]

theorem Memory.wf_erase {m : Memory} (a : Nat) (h : m.wf) : (m.erase a).wf :=
  ⟨h.1.filter _, fun c hc => h.2 c (List.mem_filter.1 hc).1⟩

theorem Memory.mem_insert {m : Memory} {a : Nat} {v : Byte} {c : Host.Cell} (h : c ∈ m.insert a v) :
    c = (a, v) ∨ c ∈ m := by
  induction m with
  | nil => simpa [Memory.insert] using h
  | cons d m ih =>
    simp only [Memory.insert] at h
    split at h
    · simpa using h
    · rcases List.mem_cons.1 h with rfl | h
      · simp
      · rcases ih h with h | h <;> simp [h]

theorem Memory.pairwise_insert {m : Memory} {a : Nat} (v : Byte)
    (hm : m.Pairwise fun c d => c.1 < d.1) (ha : ∀ c ∈ m, c.1 ≠ a) :
    (m.insert a v).Pairwise fun c d => c.1 < d.1 := by
  induction m with
  | nil => simp [Memory.insert]
  | cons c m ih =>
    rw [List.pairwise_cons] at hm
    simp only [Memory.insert]
    split
    · rename_i hlt
      rw [List.pairwise_cons, List.pairwise_cons]
      refine ⟨?_, hm⟩
      intro d hd
      rcases List.mem_cons.1 hd with rfl | hd
      · exact hlt
      · exact Nat.lt_trans hlt (hm.1 d hd)
    · rename_i hge
      have hne : c.1 ≠ a := ha c (by simp)
      rw [List.pairwise_cons]
      refine ⟨?_, ih hm.2 fun d hd => ha d (by simp [hd])⟩
      intro d hd
      rcases Memory.mem_insert hd with rfl | hd
      · show c.1 < a
        omega
      · exact hm.1 d hd

/-- A write to an address that exists keeps the canonical form. -/
theorem Memory.wf_write {m : Memory} {a : Nat} (v : Byte) (ha : a < memSize) (h : m.wf) :
    (m.write a v).wf := by
  unfold Memory.write
  split
  · exact Memory.wf_erase a h
  · rename_i hv
    have he := Memory.wf_erase a h
    refine ⟨Memory.pairwise_insert v he.1 (m.not_listed_erase a), ?_⟩
    intro c hc
    rcases Memory.mem_insert hc with rfl | hc
    · exact ⟨ha, hv⟩
    · exact he.2 c hc

/-- Writes within the 4096 bytes keep the canonical form. -/
theorem Memory.wf_writeBytes {m : Memory} {a : Nat} {vs : List Byte} (ha : a + vs.length ≤ memSize)
    (h : m.wf) : (m.writeBytes a vs).wf := by
  induction vs generalizing m a with
  | nil => exact h
  | cons v vs ih =>
    simp only [List.length_cons] at ha
    exact ih (by omega) (Memory.wf_write v (by omega) h)

/-- Two canonical memories that read alike at every address are equal data. -/
theorem Memory.ext {m n : Memory} (hm : m.wf) (hn : n.wf) (h : ∀ a, m.read a = n.read a) : m = n := by
  induction m generalizing n with
  | nil =>
    cases n with
    | nil => rfl
    | cons d n =>
      have := h d.1
      simp only [Memory.read, if_true] at this
      exact absurd this.symm (hn.2 d (by simp)).2
  | cons c m ih =>
    have tail : ∀ {c : Host.Cell} {m : Memory}, Memory.wf (c :: m) → m.wf := fun h =>
      ⟨(List.pairwise_cons.1 h.1).2, fun d hd => h.2 d (by simp [hd])⟩
    have first : ∀ {c : Host.Cell} {m : Memory}, Memory.wf (c :: m) → ∀ {a}, a < c.1 →
        Memory.read (c :: m) a = Memory.unlisted a := by
      intro c m h a hlt
      apply Memory.read_of_not_listed
      intro d hd
      rcases List.mem_cons.1 hd with rfl | hd
      · omega
      · have := (List.pairwise_cons.1 h.1).1 d hd
        omega
    have own : ∀ {c : Host.Cell} {m : Memory}, Memory.read (c :: m) c.1 = c.2 := by
      intro c m; simp [Memory.read]
    cases n with
    | nil =>
      have := h c.1
      rw [own] at this
      exact absurd this (hm.2 c (by simp)).2
    | cons d n =>
      have hk : c.1 = d.1 := by
        rcases Nat.lt_trichotomy c.1 d.1 with hlt | heq | hgt
        · have := h c.1
          rw [own, first hn hlt] at this
          exact absurd this (hm.2 c (by simp)).2
        · exact heq
        · have := h d.1
          rw [own, first hm hgt] at this
          exact absurd this.symm (hn.2 d (by simp)).2
      have hv : c.2 = d.2 := by
        have := h c.1
        rw [own] at this
        rw [this, hk, own]
      have hcd : c = d := Prod.ext hk hv
      subst hcd
      congr 1
      refine ih (tail hm) (tail hn) fun a => ?_
      have ha := h a
      by_cases e : c.1 = a
      · have hmt : Memory.read m a = Memory.unlisted a := Memory.read_of_not_listed fun d hd => by
          have := (List.pairwise_cons.1 hm.1).1 d hd
          omega
        have hnt : Memory.read n a = Memory.unlisted a := Memory.read_of_not_listed fun d hd => by
          have := (List.pairwise_cons.1 hn.1).1 d hd
          omega
        rw [hmt, hnt]
      · simpa [Memory.read, e] using ha

end Sys2Proof.Machine
end

