-- ==== Sys2Proof/Laws/Screen.lean ====
section
/-! SUPPORT. The laws of the framebuffer (spec/44_display.md R240 to R247), each in terms of its pixels. -/

namespace Sys2Proof

/-! ### Modes -/

theorem Mode.width_pos (m : Mode) : 0 < m.width := by cases m <;> decide
theorem Mode.height_pos (m : Mode) : 0 < m.height := by cases m <;> decide
theorem Mode.width_le (m : Mode) : m.width ≤ 128 := by cases m <;> decide
theorem Mode.height_le (m : Mode) : m.height ≤ 64 := by cases m <;> decide
theorem Mode.sprite_width_le (m : Mode) : 16 ≤ m.width := by cases m <;> decide
theorem Mode.sprite_height_le (m : Mode) : 16 ≤ m.height := by cases m <;> decide

end Sys2Proof

namespace Sys2Proof.Machine

/-! ### Pixels of a grid -/

theorem pixelAt_of_lt (g : Grid) (x : Nat) {y : Nat} (h : y < 64) : pixelAt g x y = g[y].getLsbD x := by
  simp [pixelAt, h]

theorem pixelAt_of_ge (g : Grid) (x : Nat) {y : Nat} (h : 64 ≤ y) : pixelAt g x y = false := by
  simp [pixelAt, Nat.not_lt.2 h]

/-- Two grids with the same pixels are equal. -/
theorem Grid.ext_pixelAt {g h : Grid} (e : ∀ x y, pixelAt g x y = pixelAt h x y) : g = h := by
  apply Vector.ext
  intro y hy
  apply BitVec.eq_of_getLsbD_eq
  intro x _
  simpa [pixelAt, hy] using e x y

@[simp] theorem pixelAt_blankGrid (x y : Nat) : pixelAt blankGrid x y = false := by
  simp [pixelAt, blankGrid]

/-- Flipping a pixel of the grid changes it and no other. -/
theorem pixelAt_flipPixel (g : Grid) {x y : Nat} (hx : x < 128) (hy : y < 64) (x' y' : Nat) :
    pixelAt (flipPixel g x y) x' y' = (pixelAt g x' y' ^^ decide ((x', y') = (x, y))) := by
  unfold pixelAt flipPixel
  by_cases h' : y' < 64
  · by_cases e : y = y'
    · subst e
      simp only [hy, dif_pos, Vector.getElem_set_self, BitVec.getLsbD_xor, BitVec.getLsbD_twoPow]
      by_cases ex : x = x'
      · subst ex
        simp [hx]
      · have : x' ≠ x := fun h => ex h.symm
        simp [ex, this]
    · have e' : y' ≠ y := fun h => e h.symm
      simp [h', hy, e, e']
  · have e' : y' ≠ y := by omega
    simp [h', e']

/-- The pixels outside the active grid are 0, said of pixels. -/
theorem gridWf_iff (m : Mode) (g : Grid) :
    gridWf m g ↔ ∀ x y, pixelAt g x y = true → x < m.width ∧ y < m.height := by
  constructor
  · intro h x y hp
    by_cases hy : y < 64
    · obtain ⟨h1, h2⟩ := h ⟨y, hy⟩
      rw [pixelAt_of_lt g x hy] at hp
      constructor
      · by_contra hx
        have hlt : g[y].toNat < 2 ^ x := Nat.lt_of_lt_of_le h1 (Nat.pow_le_pow_right (by omega) (by omega))
        have : g[y].getLsbD x = false := Nat.testBit_lt_two_pow hlt
        simp [this] at hp
      · by_contra hh
        have hz : g[y] = 0 := h2 (by simpa using hh)
        simp [hz] at hp
    · simp [pixelAt_of_ge g x (Nat.not_lt.1 hy)] at hp
  · intro h y
    constructor
    · apply Nat.lt_pow_two_of_testBit
      intro i hi
      by_contra hb
      have := (h i y.val (by rw [pixelAt_of_lt g i y.isLt]; simpa [BitVec.getLsbD] using hb)).1
      omega
    · intro hy
      apply BitVec.eq_of_getLsbD_eq
      intro i _
      by_contra hb
      have := (h i y.val (by rw [pixelAt_of_lt g i y.isLt]; simpa using hb)).2
      omega

theorem gridWf_blankGrid (m : Mode) : gridWf m blankGrid := by
  rw [gridWf_iff]; simp

/-! ### Scrolling and cropping -/

/-- Scrolling down by n: row y of the active grid holds row y - n, or 0 (R247). -/
theorem pixelAt_scrollGrid (m : Mode) (n : Nat) (g : Grid) {x y : Nat} (hy : y < m.height) :
    pixelAt (scrollGrid m n g) x y = (decide (n ≤ y) && pixelAt g x (y - n)) := by
  have h64 : y < 64 := Nat.lt_of_lt_of_le hy m.height_le
  have h64' : y - n < 64 := by omega
  rw [pixelAt_of_lt _ x h64, pixelAt_of_lt g x h64']
  by_cases hn : n ≤ y <;> simp [scrollGrid, hy, hn]

theorem gridWf_scrollGrid {m : Mode} (n : Nat) {g : Grid} (h : gridWf m g) : gridWf m (scrollGrid m n g) := by
  rw [gridWf_iff] at h ⊢
  intro x y hp
  by_cases hy : y < m.height
  · rw [pixelAt_scrollGrid m n g hy] at hp
    simp only [Bool.and_eq_true, decide_eq_true_eq] at hp
    exact ⟨(h x (y - n) hp.2).1, hy⟩
  · by_cases h64 : y < 64
    · rw [pixelAt_of_lt _ x h64] at hp
      have : pixelAt g x y = true := by
        rw [pixelAt_of_lt g x h64]
        simpa [scrollGrid, hy] using hp
      exact h x y this
    · simp [pixelAt_of_ge _ x (Nat.not_lt.1 h64)] at hp

/-- Cropping keeps the pixels of the active grid and clears the rest. -/
theorem pixelAt_cropGrid (m : Mode) (g : Grid) (x y : Nat) :
    pixelAt (cropGrid m g) x y = (decide (x < m.width) && decide (y < m.height) && pixelAt g x y) := by
  by_cases h64 : y < 64
  · rw [pixelAt_of_lt _ x h64, pixelAt_of_lt g x h64]
    have := m.width_le
    by_cases hy : y < m.height
    · by_cases hx : x < m.width
      · have : x < 128 := by omega
        simp [cropGrid, hy, hx, this]
      · simp [cropGrid, hy, hx]
    · simp [cropGrid, hy]
  · simp [pixelAt_of_ge _ x (Nat.not_lt.1 h64)]

theorem gridWf_cropGrid (m : Mode) (g : Grid) : gridWf m (cropGrid m g) := by
  rw [gridWf_iff]
  intro x y hp
  rw [pixelAt_cropGrid] at hp
  simp only [Bool.and_eq_true, decide_eq_true_eq] at hp
  exact hp.1

/-! ### Drawing -/

/-- The loop of R243 over distinct pixels of the grid: each is flipped once, and a collision is noted exactly if one
of them was 1 before. -/
theorem foldl_plotPixel (ps : List (Nat × Nat)) (hin : ∀ p ∈ ps, p.1 < 128 ∧ p.2 < 64) (hnd : ps.Nodup)
    (g : Grid) (b : Bool) :
    (∀ x y, pixelAt (ps.foldl plotPixel (g, b)).1 x y = (pixelAt g x y ^^ decide ((x, y) ∈ ps))) ∧
    (ps.foldl plotPixel (g, b)).2 = (b || ps.any fun p => pixelAt g p.1 p.2) := by
  induction ps generalizing g b with
  | nil => simp
  | cons p ps ih =>
    obtain ⟨px, py⟩ := p
    have hp := hin (px, py) (by simp)
    rw [List.nodup_cons] at hnd
    obtain ⟨ih1, ih2⟩ := ih (fun q hq => hin q (by simp [hq])) hnd.2 (flipPixel g px py) (b || pixelAt g px py)
    simp only [List.foldl_cons, plotPixel]
    constructor
    · intro x y
      rw [ih1, pixelAt_flipPixel g hp.1 hp.2]
      by_cases e : (x, y) = (px, py)
      · have : (x, y) ∉ ps := e ▸ hnd.1
        simp [e, e ▸ this]
      · simp [e]
    · rw [ih2, List.any_cons, Bool.or_assoc]
      have : (ps.any fun p => pixelAt (flipPixel g px py) p.1 p.2) = ps.any fun p => pixelAt g p.1 p.2 := by
        rw [Bool.eq_iff_iff, List.any_eq_true, List.any_eq_true]
        have other : ∀ q ∈ ps, pixelAt (flipPixel g px py) q.1 q.2 = pixelAt g q.1 q.2 := by
          intro q hq
          have : q ≠ (px, py) := fun e => hnd.1 (e ▸ hq)
          rw [pixelAt_flipPixel g hp.1 hp.2]
          simp [this]
        exact ⟨fun ⟨q, hq, h⟩ => ⟨q, hq, other q hq ▸ h⟩, fun ⟨q, hq, h⟩ => ⟨q, hq, (other q hq).symm ▸ h⟩⟩
      rw [this]

/-- Which grid pixels a sprite touches (R243). -/
theorem mem_spritePixels {w : Nat} (m : Mode) (x y : Nat) (rows : List (BitVec w)) (px py : Nat) :
    (px, py) ∈ spritePixels m x y rows ↔
      ∃ r c, ∃ h : r < rows.length, c < w ∧ spriteBit rows[r] c = true ∧
        px = (x + c) % m.width ∧ py = (y + r) % m.height := by
  simp only [spritePixels, rowColumns, List.mem_flatMap, List.mem_map, List.mem_filter, List.mem_range,
    Prod.mk.injEq]
  constructor
  · rintro ⟨⟨row, r⟩, hr, c, ⟨hc, hb⟩, hx, hy⟩
    obtain ⟨h, e⟩ := List.mem_zipIdx' hr
    exact ⟨r, c, h, hc, e ▸ hb, hx.symm, hy.symm⟩
  · rintro ⟨r, c, h, hc, hb, rfl, rfl⟩
    exact ⟨(rows[r], r), List.mem_zipIdx_iff_getElem?.2 (by simp [h]), c, ⟨hc, hb⟩, rfl, rfl⟩

theorem spritePixels_in_grid {w : Nat} (m : Mode) (x y : Nat) (rows : List (BitVec w)) :
    ∀ p ∈ spritePixels m x y rows, p.1 < 128 ∧ p.2 < 64 := by
  rintro ⟨px, py⟩ hp
  obtain ⟨r, c, -, -, -, rfl, rfl⟩ := (mem_spritePixels m x y rows px py).1 hp
  exact ⟨Nat.lt_of_lt_of_le (Nat.mod_lt _ m.width_pos) m.width_le,
    Nat.lt_of_lt_of_le (Nat.mod_lt _ m.height_pos) m.height_le⟩

/-- Residues of different offsets below the modulus differ. -/
theorem add_mod_inj {x a b n : Nat} (ha : a < n) (hb : b < n) (h : (x + a) % n = (x + b) % n) : a = b := by
  have : a ≡ b [MOD n] := Nat.ModEq.add_left_cancel' x h
  rw [Nat.ModEq, Nat.mod_eq_of_lt ha, Nat.mod_eq_of_lt hb] at this
  exact this

/-- Each sprite pixel lands on a grid pixel of its own (R246). -/
theorem nodup_spritePixels {w : Nat} (m : Mode) (x y : Nat) (rows : List (BitVec w)) (hw : w ≤ m.width)
    (hr : rows.length ≤ m.height) : (spritePixels m x y rows).Nodup := by
  unfold spritePixels
  rw [List.nodup_flatMap]
  constructor
  · rintro ⟨row, r⟩ _
    refine List.Nodup.map_on ?_ (List.nodup_range.filter _)
    intro a ha b hb h
    have ha' : a < w := by simpa using (List.mem_filter.1 ha).1
    have hb' : b < w := by simpa using (List.mem_filter.1 hb).1
    exact add_mod_inj (by omega) (by omega) (Prod.mk.inj h).1
  · have hnd : rows.zipIdx.Pairwise fun a b => a.2 ≠ b.2 := by
      have : (rows.zipIdx.map Prod.snd).Nodup := by simp [List.nodup_range']
      exact List.pairwise_map.1 this
    refine List.Pairwise.imp_of_mem ?_ hnd
    rintro ⟨ra, a⟩ ⟨rb, b⟩ ha hb hab p hpa hpb
    obtain ⟨h1, -⟩ := List.mem_zipIdx' ha
    obtain ⟨h2, -⟩ := List.mem_zipIdx' hb
    obtain ⟨c, -, rfl⟩ := List.mem_map.1 hpa
    obtain ⟨d, -, h⟩ := List.mem_map.1 hpb
    exact hab (add_mod_inj (by omega) (by omega) (Prod.mk.inj h).2.symm)

/-- The pixels after a draw (R243): exactly those the sprite touches are flipped. -/
theorem pixelAt_drawSprite {w : Nat} (m : Mode) (g : Grid) (x y : Nat) (rows : List (BitVec w))
    (hw : w ≤ m.width) (hr : rows.length ≤ m.height) (px py : Nat) :
    pixelAt (drawSprite m g x y rows).1 px py = (pixelAt g px py ^^ decide ((px, py) ∈ spritePixels m x y rows)) :=
  (foldl_plotPixel _ (spritePixels_in_grid m x y rows) (nodup_spritePixels m x y rows hw hr) g false).1 px py

/-- The collision of a draw (R246): some touched pixel was 1 before. -/
theorem drawSprite_collided {w : Nat} (m : Mode) (g : Grid) (x y : Nat) (rows : List (BitVec w))
    (hw : w ≤ m.width) (hr : rows.length ≤ m.height) :
    (drawSprite m g x y rows).2 = true ↔ ∃ px py, (px, py) ∈ spritePixels m x y rows ∧ pixelAt g px py = true := by
  have := (foldl_plotPixel _ (spritePixels_in_grid m x y rows) (nodup_spritePixels m x y rows hw hr) g false).2
  unfold drawSprite
  rw [this]
  simp

theorem gridWf_drawSprite {w : Nat} {m : Mode} {g : Grid} (x y : Nat) (rows : List (BitVec w))
    (hw : w ≤ m.width) (hr : rows.length ≤ m.height) (h : gridWf m g) : gridWf m (drawSprite m g x y rows).1 := by
  rw [gridWf_iff] at h ⊢
  intro px py hp
  rw [pixelAt_drawSprite m g x y rows hw hr] at hp
  by_cases hm : (px, py) ∈ spritePixels m x y rows
  · obtain ⟨r, c, -, -, -, rfl, rfl⟩ := (mem_spritePixels m x y rows px py).1 hm
    exact ⟨Nat.mod_lt _ m.width_pos, Nat.mod_lt _ m.height_pos⟩
  · exact h px py (by simpa [hm] using hp)

end Sys2Proof.Machine
end

