-- ==== Sys2Proof/Laws/State.lean ====
section
/-! SUPPORT. One lemma per field per update of State, so that no proof unfolds a record update, and the laws of the
registers and of the pc. -/

namespace Sys2Proof.Machine

@[simp] theorem State.writeV_I (s : State) (x : Nibble) (b : Byte) : (s.writeV x b).I = s.I := rfl
@[simp] theorem State.writeV_pc (s : State) (x : Nibble) (b : Byte) : (s.writeV x b).pc = s.pc := rfl
@[simp] theorem State.writeV_sp (s : State) (x : Nibble) (b : Byte) : (s.writeV x b).sp = s.sp := rfl
@[simp] theorem State.writeV_stack (s : State) (x : Nibble) (b : Byte) : (s.writeV x b).stack = s.stack := rfl
@[simp] theorem State.writeV_DT (s : State) (x : Nibble) (b : Byte) : (s.writeV x b).DT = s.DT := rfl
@[simp] theorem State.writeV_ST (s : State) (x : Nibble) (b : Byte) : (s.writeV x b).ST = s.ST := rfl
@[simp] theorem State.writeV_mode (s : State) (x : Nibble) (b : Byte) : (s.writeV x b).mode = s.mode := rfl
@[simp] theorem State.writeV_fb (s : State) (x : Nibble) (b : Byte) : (s.writeV x b).fb = s.fb := rfl
@[simp] theorem State.writeV_keys (s : State) (x : Nibble) (b : Byte) : (s.writeV x b).keys = s.keys := rfl
@[simp] theorem State.writeV_latch (s : State) (x : Nibble) (b : Byte) : (s.writeV x b).latch = s.latch := rfl
@[simp] theorem State.writeV_rpl (s : State) (x : Nibble) (b : Byte) : (s.writeV x b).rpl = s.rpl := rfl
@[simp] theorem State.writeV_run (s : State) (x : Nibble) (b : Byte) : (s.writeV x b).run = s.run := rfl
@[simp] theorem State.writeV_mem (s : State) (x : Nibble) (b : Byte) : (s.writeV x b).mem = s.mem := rfl
@[simp] theorem State.writeV_cfg (s : State) (x : Nibble) (b : Byte) : (s.writeV x b).cfg = s.cfg := rfl
@[simp] theorem State.writeV_draws (s : State) (x : Nibble) (b : Byte) : (s.writeV x b).draws = s.draws := rfl

@[simp] theorem State.advance_V (s : State) : (s.advance).V = s.V := rfl
@[simp] theorem State.advance_I (s : State) : (s.advance).I = s.I := rfl
@[simp] theorem State.advance_sp (s : State) : (s.advance).sp = s.sp := rfl
@[simp] theorem State.advance_stack (s : State) : (s.advance).stack = s.stack := rfl
@[simp] theorem State.advance_DT (s : State) : (s.advance).DT = s.DT := rfl
@[simp] theorem State.advance_ST (s : State) : (s.advance).ST = s.ST := rfl
@[simp] theorem State.advance_mode (s : State) : (s.advance).mode = s.mode := rfl
@[simp] theorem State.advance_fb (s : State) : (s.advance).fb = s.fb := rfl
@[simp] theorem State.advance_keys (s : State) : (s.advance).keys = s.keys := rfl
@[simp] theorem State.advance_latch (s : State) : (s.advance).latch = s.latch := rfl
@[simp] theorem State.advance_rpl (s : State) : (s.advance).rpl = s.rpl := rfl
@[simp] theorem State.advance_run (s : State) : (s.advance).run = s.run := rfl
@[simp] theorem State.advance_mem (s : State) : (s.advance).mem = s.mem := rfl
@[simp] theorem State.advance_cfg (s : State) : (s.advance).cfg = s.cfg := rfl
@[simp] theorem State.advance_draws (s : State) : (s.advance).draws = s.draws := rfl

@[simp] theorem State.skipIf_V (s : State) (c : Bool) : (s.skipIf c).V = s.V := rfl
@[simp] theorem State.skipIf_I (s : State) (c : Bool) : (s.skipIf c).I = s.I := rfl
@[simp] theorem State.skipIf_sp (s : State) (c : Bool) : (s.skipIf c).sp = s.sp := rfl
@[simp] theorem State.skipIf_stack (s : State) (c : Bool) : (s.skipIf c).stack = s.stack := rfl
@[simp] theorem State.skipIf_DT (s : State) (c : Bool) : (s.skipIf c).DT = s.DT := rfl
@[simp] theorem State.skipIf_ST (s : State) (c : Bool) : (s.skipIf c).ST = s.ST := rfl
@[simp] theorem State.skipIf_mode (s : State) (c : Bool) : (s.skipIf c).mode = s.mode := rfl
@[simp] theorem State.skipIf_fb (s : State) (c : Bool) : (s.skipIf c).fb = s.fb := rfl
@[simp] theorem State.skipIf_keys (s : State) (c : Bool) : (s.skipIf c).keys = s.keys := rfl
@[simp] theorem State.skipIf_latch (s : State) (c : Bool) : (s.skipIf c).latch = s.latch := rfl
@[simp] theorem State.skipIf_rpl (s : State) (c : Bool) : (s.skipIf c).rpl = s.rpl := rfl
@[simp] theorem State.skipIf_run (s : State) (c : Bool) : (s.skipIf c).run = s.run := rfl
@[simp] theorem State.skipIf_mem (s : State) (c : Bool) : (s.skipIf c).mem = s.mem := rfl
@[simp] theorem State.skipIf_cfg (s : State) (c : Bool) : (s.skipIf c).cfg = s.cfg := rfl
@[simp] theorem State.skipIf_draws (s : State) (c : Bool) : (s.skipIf c).draws = s.draws := rfl

@[simp] theorem State.jump_V (s : State) (a : Word) : (s.jump a).V = s.V := rfl
@[simp] theorem State.jump_I (s : State) (a : Word) : (s.jump a).I = s.I := rfl
@[simp] theorem State.jump_sp (s : State) (a : Word) : (s.jump a).sp = s.sp := rfl
@[simp] theorem State.jump_stack (s : State) (a : Word) : (s.jump a).stack = s.stack := rfl
@[simp] theorem State.jump_DT (s : State) (a : Word) : (s.jump a).DT = s.DT := rfl
@[simp] theorem State.jump_ST (s : State) (a : Word) : (s.jump a).ST = s.ST := rfl
@[simp] theorem State.jump_mode (s : State) (a : Word) : (s.jump a).mode = s.mode := rfl
@[simp] theorem State.jump_fb (s : State) (a : Word) : (s.jump a).fb = s.fb := rfl
@[simp] theorem State.jump_keys (s : State) (a : Word) : (s.jump a).keys = s.keys := rfl
@[simp] theorem State.jump_latch (s : State) (a : Word) : (s.jump a).latch = s.latch := rfl
@[simp] theorem State.jump_rpl (s : State) (a : Word) : (s.jump a).rpl = s.rpl := rfl
@[simp] theorem State.jump_run (s : State) (a : Word) : (s.jump a).run = s.run := rfl
@[simp] theorem State.jump_mem (s : State) (a : Word) : (s.jump a).mem = s.mem := rfl
@[simp] theorem State.jump_cfg (s : State) (a : Word) : (s.jump a).cfg = s.cfg := rfl
@[simp] theorem State.jump_draws (s : State) (a : Word) : (s.jump a).draws = s.draws := rfl

@[simp] theorem State.countDraw_V (s : State) : (s.countDraw).V = s.V := rfl
@[simp] theorem State.countDraw_I (s : State) : (s.countDraw).I = s.I := rfl
@[simp] theorem State.countDraw_pc (s : State) : (s.countDraw).pc = s.pc := rfl
@[simp] theorem State.countDraw_sp (s : State) : (s.countDraw).sp = s.sp := rfl
@[simp] theorem State.countDraw_stack (s : State) : (s.countDraw).stack = s.stack := rfl
@[simp] theorem State.countDraw_DT (s : State) : (s.countDraw).DT = s.DT := rfl
@[simp] theorem State.countDraw_ST (s : State) : (s.countDraw).ST = s.ST := rfl
@[simp] theorem State.countDraw_mode (s : State) : (s.countDraw).mode = s.mode := rfl
@[simp] theorem State.countDraw_fb (s : State) : (s.countDraw).fb = s.fb := rfl
@[simp] theorem State.countDraw_keys (s : State) : (s.countDraw).keys = s.keys := rfl
@[simp] theorem State.countDraw_latch (s : State) : (s.countDraw).latch = s.latch := rfl
@[simp] theorem State.countDraw_rpl (s : State) : (s.countDraw).rpl = s.rpl := rfl
@[simp] theorem State.countDraw_run (s : State) : (s.countDraw).run = s.run := rfl
@[simp] theorem State.countDraw_mem (s : State) : (s.countDraw).mem = s.mem := rfl
@[simp] theorem State.countDraw_cfg (s : State) : (s.countDraw).cfg = s.cfg := rfl

@[simp] theorem State.advance_pc (s : State) : s.advance.pc = s.pc + 2 := rfl
@[simp] theorem State.skipIf_pc (s : State) (c : Bool) : (s.skipIf c).pc = if c then s.pc + 4 else s.pc + 2 := rfl
@[simp] theorem State.jump_pc (s : State) (a : Word) : (s.jump a).pc = a := rfl
@[simp] theorem State.countDraw_draws (s : State) : s.countDraw.draws = s.draws + 1 := rfl

/-! ### Reading a register after an update -/

theorem State.readV_congr {s t : State} (h : t.V = s.V) (x : Nibble) : t.readV x = s.readV x := by
  simp [State.readV, h]

@[simp] theorem State.readV_advance (s : State) (x : Nibble) : s.advance.readV x = s.readV x := rfl
@[simp] theorem State.readV_skipIf (s : State) (c : Bool) (x : Nibble) : (s.skipIf c).readV x = s.readV x := rfl
@[simp] theorem State.readV_jump (s : State) (a : Word) (x : Nibble) : (s.jump a).readV x = s.readV x := rfl
@[simp] theorem State.readV_countDraw (s : State) (x : Nibble) : s.countDraw.readV x = s.readV x := rfl

/-- A register reads as written, and every other one as before (spec/10_state.md R30). -/
theorem State.readV_writeV (s : State) (x y : Nibble) (b : Byte) :
    (s.writeV x b).readV y = if y = x then b else s.readV y := by
  by_cases h : y = x
  · subst h
    simp [State.readV, State.writeV]
  · have : x.toNat ≠ y.toNat := fun e => h (BitVec.eq_of_toNat_eq e.symm)
    simp [State.readV, State.writeV, h, this]

@[simp] theorem State.readV_writeV_same (s : State) (x : Nibble) (b : Byte) : (s.writeV x b).readV x = b := by
  simp [State.readV_writeV]

theorem State.readV_writeV_ne (s : State) {x y : Nibble} (b : Byte) (h : y ≠ x) :
    (s.writeV x b).readV y = s.readV y := by
  simp [State.readV_writeV, h]

/-- A register read by its index in the file. -/
theorem State.readV_eq_getElem (s : State) (x : Nibble) : s.readV x = s.V[x.toNat]'(x.isLt) := rfl

/-- Two register files that read alike are equal. -/
theorem State.V_ext {s t : State} (h : ∀ x, t.readV x = s.readV x) : t.V = s.V := by
  apply Vector.ext
  intro k hk
  have := h (BitVec.ofNat 4 k)
  simpa [State.readV, Nat.mod_eq_of_lt hk] using this

/-! ### Result and flag (spec/40_execution.md R140) -/

/-- VF ends holding the flag, whatever the destination. -/
@[simp] theorem State.writeResultAndFlag_flag (s : State) (x : Nibble) (r f : Byte) :
    (s.writeResultAndFlag x r f).readV vF = f := by
  simp [State.writeResultAndFlag]

theorem State.readV_writeResultAndFlag (s : State) (x y : Nibble) (r f : Byte) :
    (s.writeResultAndFlag x r f).readV y = if y = vF then f else if y = x then r else s.readV y := by
  simp [State.writeResultAndFlag, State.readV_writeV]

/-- Result and flag change the register file alone. -/
theorem State.writeResultAndFlag_frame (s : State) (x : Nibble) (r f : Byte) :
    s.writeResultAndFlag x r f = { s with V := (s.writeResultAndFlag x r f).V } := rfl

/-- A flag is 0 or 1 (spec/42_alu.md R191). -/
theorem flagByte_toNat (b : Bool) : (flagByte b).toNat = if b then 1 else 0 := by
  cases b <;> rfl

end Sys2Proof.Machine
end

