-- ==== Sys2Proof/Laws/Ops.lean ====
section
/-! SUPPORT. What each shared operation can do, said once: the bounds check, the stack, the operand forms, the free
choice of a key, the mode change. -/

namespace Sys2Proof.Machine

/-! ### Raising an error (spec/60_exceptions.md R302) -/

theorem raise_eq (e : ErrorKind) (s : State) :
    raise e s = .next { s with run := .halted { error := e, pc := s.pc } } := rfl

/-! ### The bounds check (spec/20_memory.md R73) -/

theorem accessThen_fits {s : State} {a n : Nat} (k : StepResult) (h : a + n ≤ memSize) :
    accessThen s a n k = k := by
  simp [accessThen, h]

theorem accessThen_past {s : State} {a n : Nat} (k : StepResult) (h : memSize < a + n) :
    accessThen s a n k = raise (.addressOutOfBounds (lowestBadAddress a)) s := by
  simp [accessThen, Nat.not_le.2 h]

/-- The address an error carries is above 0xFFF, belongs to the access, and every lower one of the access exists. -/
theorem lowestBadAddress_spec {a n : Nat} (h : memSize < a + n) :
    memSize ≤ lowestBadAddress a ∧ a ≤ lowestBadAddress a ∧ lowestBadAddress a < a + n ∨ memSize ≤ a := by
  by_cases ha : memSize ≤ a
  · exact .inr ha
  · exact .inl (by unfold lowestBadAddress; omega)

/-! ### The stack (spec/10_state.md R40, R41) -/

theorem pushThen_room {s : State} (a : Word) (k : State → StepResult) (h : s.sp.toNat < stackDepth) :
    pushThen s a k = k { s with stack := s.stack.set s.sp.toNat a h, sp := s.sp + 1 } := by
  simp only [pushThen, h, dif_pos]

theorem pushThen_full {s : State} (a : Word) (k : State → StepResult) (h : stackDepth ≤ s.sp.toNat) :
    pushThen s a k = raise .stackOverflow s := by
  simp only [pushThen, Nat.not_lt.2 h, dif_neg, not_false_eq_true]

theorem popThen_empty {s : State} (k : Word → State → StepResult) (h : s.sp = 0) :
    popThen s k = raise .stackUnderflow s := by
  simp [popThen, h]

theorem popThen_live {s : State} (k : Word → State → StepResult) (h0 : s.sp ≠ 0)
    (h : s.sp.toNat - 1 < stackDepth) :
    popThen s k = k (s.stack[s.sp.toNat - 1]) { s with sp := s.sp - 1 } := by
  simp only [popThen, h0, if_false, h, dif_pos]

theorem popThen_beyond {s : State} (k : Word → State → StepResult) (h : stackDepth < s.sp.toNat) :
    popThen s k = .fault .stackPointerOutOfRange := by
  have h0 : s.sp ≠ 0 := by
    intro e
    rw [e] at h
    exact absurd h (by decide)
  have h1 : ¬ s.sp.toNat - 1 < stackDepth := by omega
  simp only [popThen, h0, if_false, h1, dif_neg, not_false_eq_true]

/-! ### Operand forms -/

/-- A register value names a key or a digit exactly if it is at most 0xF. -/
theorem hexOperand_of_le {v : Byte} (h : v.toNat ≤ 0xF) : hexOperand v = some (v.setWidth 4) := by
  simp [hexOperand, h]

theorem hexOperand_of_gt {v : Byte} (h : 0xF < v.toNat) : hexOperand v = none := by
  simp [hexOperand, Nat.not_le.2 h]

/-- The key or digit a value names has that value. -/
theorem hexOperand_value {v : Byte} {d : Nibble} (h : hexOperand v = some d) : d.toNat = v.toNat := by
  unfold hexOperand at h
  split at h
  · rename_i hv
    simp only [Option.some.injEq] at h
    subst h
    rw [BitVec.toNat_setWidth]
    exact Nat.mod_eq_of_lt (by omega)
  · cases h

@[simp] theorem length_bcdDigits (v : Byte) : (bcdDigits v).length = 3 := rfl

@[simp] theorem length_registerBlock (s : State) (x : Nibble) : (registerBlock s x).length = x.toNat + 1 := by
  have := x.isLt
  simp [registerBlock]
  omega

/-- Byte k of the block is Vk (spec/43_index_memory.md R216). -/
theorem getElem_registerBlock (s : State) (x : Nibble) (k : Nat) (h : k < (registerBlock s x).length) :
    (registerBlock s x)[k] = s.readV (BitVec.ofNat 4 k) := by
  have hk : k < 16 := by
    have := x.isLt
    simp only [length_registerBlock] at h
    omega
  simp [registerBlock, State.readV, Nat.mod_eq_of_lt hk]

/-- After a block load VY holds its byte of memory if Y is at most X, and else its old value (R217). -/
theorem loadedBlock_getElem (s : State) (x y : Nibble) (a : Nat) :
    (loadedBlock s x a)[y.toNat]'(y.isLt) =
      if y.toNat ≤ x.toNat then s.mem.read (a + y.toNat) else s.readV y := by
  simp [loadedBlock, State.readV]

theorem savedFlags_getElem (s : State) (x : Nibble) (k : Nat) (h : k < 8) :
    (savedFlags s x)[k] = if k ≤ x.toNat then s.readV (BitVec.ofNat 4 k) else s.rpl[k] := by
  have : k % 16 = k := Nat.mod_eq_of_lt (by omega)
  simp [savedFlags, State.readV, this]

theorem restoredBlock_getElem (s : State) (x y : Nibble) :
    (restoredBlock s x)[y.toNat]'(y.isLt) =
      if h : y.toNat < 8 then (if y.toNat ≤ x.toNat then s.rpl[y.toNat] else s.readV y) else s.readV y := by
  simp [restoredBlock, State.readV]

@[simp] theorem length_smallSpriteRows (m : Memory) (a n : Nat) : (smallSpriteRows m a n).length = n := by
  simp [smallSpriteRows]

@[simp] theorem length_bigSpriteRows (m : Memory) (a : Nat) : (bigSpriteRows m a).length = 16 := by
  simp [bigSpriteRows]

/-! ### The keypad (spec/45_keypad_timers.md R283) -/

theorem mem_latchedKeys (s : State) (k : Nibble) : k ∈ s.latchedKeys ↔ s.latch[k.toNat]'(k.isLt) = true := by
  simp only [State.latchedKeys, List.mem_map, List.mem_filter, List.mem_finRange, true_and]
  constructor
  · rintro ⟨j, hj, rfl⟩
    exact hj
  · intro h
    exact ⟨k.toFin, h, rfl⟩

theorem chooseFrom_eq_none (c : Nat) (ks : List Nibble) : chooseFrom c ks = none ↔ ks = [] := by
  rcases ks with _ | ⟨k, _ | ⟨l, ks⟩⟩ <;> simp [chooseFrom]

theorem chooseFrom_mem {c : Nat} {ks : List Nibble} {k : Nibble} (h : chooseFrom c ks = some k) : k ∈ ks := by
  rcases ks with _ | ⟨j, _ | ⟨l, ks⟩⟩
  · simp [chooseFrom] at h
  · simpa [chooseFrom, eq_comm] using h
  · simp only [chooseFrom, Option.some.injEq] at h
    rw [← h]
    exact List.getElem_mem _

/-! ### The display (spec/44_display.md R242) -/

theorem setMode_same (s : State) : setMode s.mode s = s := by simp [setMode]

theorem setMode_other {m : Mode} {s : State} (h : m ≠ s.mode) :
    setMode m s = { s with
      mode := m, fb := cropGrid m (Config.modeSwitchGrid s.draws), draws := s.draws + 1 } := by
  simp [setMode, h, State.countDraw]

/-- A draw changes the framebuffer and VF alone. -/
theorem drawAndFlag_frame {w : Nat} (s : State) (x y : Nat) (rows : List (BitVec w)) :
    drawAndFlag s x y rows =
      { s with fb := (drawSprite s.mode s.fb x y rows).1, V := (drawAndFlag s x y rows).V } := rfl

theorem readV_drawAndFlag {w : Nat} (s : State) (x y : Nat) (rows : List (BitVec w)) (z : Nibble) :
    (drawAndFlag s x y rows).readV z =
      if z = vF then flagByte (drawSprite s.mode s.fb x y rows).2 else s.readV z := by
  simp only [drawAndFlag, State.readV_writeV]
  rfl

end Sys2Proof.Machine
end

