-- ==== Sys2Proof/Laws/Step.lean ====
section
/-! SUPPORT. What a step does in each run state, and the cases of a step that answers a next state
(spec/40_execution.md R130). -/

namespace Sys2Proof.Machine

theorem step_of_halted {s : State} {e : ErrorRecord} (h : s.run = .halted e) : step s = .next s := by
  simp [step, h]

theorem step_of_waiting {s : State} {x : Nibble} (h : s.run = .waitingForKey x) : step s = completeWait x s := by
  simp [step, h]

/-- In Running, with an opcode at pc inside memory, the step is the decoded instruction's or the illegal word's. -/
theorem step_of_fetch {s : State} (h : s.run = .running) (hpc : s.pc.toNat + 2 ≤ memSize) :
    step s = match decode (s.mem.readWord s.pc.toNat) with
      | .ok i => exec i s
      | .error _ => raise (.illegalInstruction (s.mem.readWord s.pc.toNat)) s := by
  unfold step fetchThen
  rw [h]
  exact accessThen_fits _ hpc

theorem step_of_pc_past {s : State} (h : s.run = .running) (hpc : memSize < s.pc.toNat + 2) :
    step s = raise (.addressOutOfBounds (lowestBadAddress s.pc.toNat)) s := by
  unfold step fetchThen
  rw [h]
  exact accessThen_past _ hpc

/-- Every way a step ends, whatever it answers. -/
theorem step_cases (s : State) :
    (∃ e, s.run = .halted e ∧ step s = .next s) ∨
    (∃ x, s.run = .waitingForKey x ∧ step s = completeWait x s) ∨
    (s.run = .running ∧ memSize < s.pc.toNat + 2 ∧
      step s = raise (.addressOutOfBounds (lowestBadAddress s.pc.toNat)) s) ∨
    (s.run = .running ∧ s.pc.toNat + 2 ≤ memSize ∧
      step s = raise (.illegalInstruction (s.mem.readWord s.pc.toNat)) s) ∨
    (∃ i, s.run = .running ∧ s.pc.toNat + 2 ≤ memSize ∧
      decode (s.mem.readWord s.pc.toNat) = .ok i ∧ step s = exec i s) := by
  cases hr : s.run with
  | halted e => exact .inl ⟨e, rfl, step_of_halted hr⟩
  | waitingForKey x => exact .inr (.inl ⟨x, rfl, step_of_waiting hr⟩)
  | running =>
    by_cases hpc : s.pc.toNat + 2 ≤ memSize
    · have hs := step_of_fetch hr hpc
      cases hd : decode (s.mem.readWord s.pc.toNat) with
      | ok i => exact .inr (.inr (.inr (.inr ⟨i, rfl, hpc, rfl, by rw [hs, hd]⟩)))
      | error e => exact .inr (.inr (.inr (.inl ⟨rfl, hpc, by rw [hs, hd]⟩)))
    · exact .inr (.inr (.inl ⟨rfl, Nat.not_le.1 hpc, step_of_pc_past hr (Nat.not_le.1 hpc)⟩))

/-- A state in which an opcode was placed runs it next. -/
theorem step_placeOpcode (s : State) (op : Word) :
    step (placeOpcode s op) = match decode op with
      | .ok i => exec i (placeOpcode s op)
      | .error _ => raise (.illegalInstruction op) (placeOpcode s op) := by
  have hpc : (placeOpcode s op).pc.toNat + 2 ≤ memSize := by
    simp only [placeOpcode]
    split
    · assumption
    · decide
  rw [step_of_fetch rfl hpc]
  have : (placeOpcode s op).mem.readWord (placeOpcode s op).pc.toNat = op :=
    Memory.readWord_writeBytes _ _ op
  rw [this]

/-! ### The agents outside the CPU -/

@[simp] theorem tickTimer_toNat (t : Byte) : (tickTimer t).toNat = t.toNat - 1 := by
  unfold tickTimer
  split
  · rename_i h
    simp [h]
  · rename_i h
    have : t.toNat ≠ 0 := fun e => h (BitVec.eq_of_toNat_eq (by simpa using e))
    have hlt := t.isLt
    rw [BitVec.toNat_sub]
    show (2 ^ 8 - 1 + t.toNat) % 2 ^ 8 = t.toNat - 1
    omega

theorem andThen_eq_next {r : StepResult} {k : State → StepResult} {u : State}
    (h : andThen r k = .next u) : ∃ t, r = .next t ∧ k t = .next u := by
  cases r with
  | next t => exact ⟨t, rfl, h⟩
  | fault f => cases h
  | refused e => cases h

/-- The memory a load leaves, address by address: the font, the image if it fits, `mem_init` elsewhere (R331). -/
theorem read_loadedMemory (cfg : Cfg) (bytes : List Byte) (inputs : LoadInputs) (a : Nat) :
    (loadedMemory cfg bytes inputs).read a =
      if h : a < fontSize then cfg.font[a]
      else if romFits bytes = true ∧ programBase ≤ a ∧ a - programBase < bytes.length then
        bytes.getD (a - programBase) 0
      else inputs.memInit.read a := by
  have hlen : cfg.font.toList.length = fontSize := by simp
  have hfont : (inputs.memInit.writeBytes 0 cfg.font.toList).read a =
      if h : a < fontSize then cfg.font[a] else inputs.memInit.read a := by
    rw [Memory.read_writeBytes]
    by_cases ha : a < fontSize
    · rw [dif_pos ⟨Nat.zero_le a, by rw [hlen, Nat.sub_zero]; exact ha⟩, dif_pos ha]
      simp
    · rw [dif_neg (by rw [hlen, Nat.sub_zero]; exact fun h => ha h.2), dif_neg ha]
  unfold loadedMemory
  rw [Memory.read_writeBytes, hfont]
  by_cases hf : romFits bytes = true
  · simp only [hf, if_true, true_and]
    by_cases ha : a < fontSize
    · have h1 : ¬ (programBase ≤ a ∧ a - programBase < bytes.length) := fun h =>
        absurd (Nat.lt_of_le_of_lt h.1 ha) (by decide)
      rw [dif_neg h1, dif_pos ha, dif_pos ha]
    · rw [dif_neg ha, dif_neg ha]
      split
      · rename_i h
        rw [List.getD_eq_getElem _ _ h.2]
      · rfl
  · simp [hf]

theorem wf_loadedMemory (cfg : Cfg) (bytes : List Byte) {inputs : LoadInputs} (h : inputs.memInit.wf) :
    (loadedMemory cfg bytes inputs).wf := by
  unfold loadedMemory
  apply Memory.wf_writeBytes
  · split
    · rename_i hf
      have : bytes.length ≤ maxRomSize := by simpa [romFits] using hf
      show programBase + bytes.length ≤ memSize
      unfold maxRomSize at this
      unfold programBase memSize
      omega
    · decide
  · apply Memory.wf_writeBytes _ h
    simp [fontSize, memSize]

end Sys2Proof.Machine
end

