-- ==== Sys2Proof/Laws/Exec.lean ====
section
/-! SUPPORT. What an instruction does when it answers a next state: an error of the spec is raised, or the
instruction has its effect. Every proof about all instructions cites `exec_next`. -/

namespace Sys2Proof.Machine

/-- The state t is s after the instruction's effect, no error being raised. -/
def Effect (s t : State) : Instr → Prop
  | .cls => t = State.advance { s with fb := blankGrid }
  | .ret => s.sp ≠ 0 ∧ ∃ h : s.sp.toNat - 1 < stackDepth, t = { s with sp := s.sp - 1, pc := s.stack[s.sp.toNat - 1] }
  | .scd n => t = State.advance { s with fb := scrollGrid s.mode n.toNat s.fb }
  | .low => t = (setMode .base s).advance
  | .high => t = (setMode .extended s).advance
  | .jp nnn => t = s.jump nnn
  | .call nnn => ∃ h : s.sp.toNat < stackDepth,
      t = { s with stack := s.stack.set s.sp.toNat (s.pc + 2) h, sp := s.sp + 1, pc := nnn }
  | .seImm x nn => t = s.skipIf (s.readV x == nn)
  | .sneImm x nn => t = s.skipIf (s.readV x != nn)
  | .seReg x y => t = s.skipIf (s.readV x == s.readV y)
  | .sneReg x y => t = s.skipIf (s.readV x != s.readV y)
  | .ldImm x nn => t = (s.writeV x nn).advance
  | .addImm x nn => t = (s.writeV x (s.readV x + nn)).advance
  | .ldReg x y => t = (s.writeV x (s.readV y)).advance
  | .or x y => t = (s.writeV x (s.readV x ||| s.readV y)).advance
  | .and x y => t = (s.writeV x (s.readV x &&& s.readV y)).advance
  | .xor x y => t = (s.writeV x (s.readV x ^^^ s.readV y)).advance
  | .addReg x y => ∃ r f, t = (s.writeResultAndFlag x r f).advance
  | .sub x y => ∃ r f, t = (s.writeResultAndFlag x r f).advance
  | .shr x y => ∃ r f, t = (s.writeResultAndFlag x r f).advance
  | .subn x y => ∃ r f, t = (s.writeResultAndFlag x r f).advance
  | .shl x y => ∃ r f, t = (s.writeResultAndFlag x r f).advance
  | .ldI nnn => t = State.advance { s with I := nnn }
  | .jpV0 nnn => t = s.jump (jumpTargetV0 s nnn)
  | .rnd x nn => t = (s.writeV x (Config.rand s.draws &&& nn)).countDraw.advance
  | .drw x y n =>
      (n = 0 ∧ s.mode = .extended ∧ s.I.toNat + 32 ≤ memSize ∧
        t = (drawAndFlag s (s.readV x).toNat (s.readV y).toNat (bigSpriteRows s.mem s.I.toNat)).advance) ∨
      (n ≠ 0 ∧ s.I.toNat + n.toNat ≤ memSize ∧
        t = (drawAndFlag s (s.readV x).toNat (s.readV y).toNat (smallSpriteRows s.mem s.I.toNat n.toNat)).advance)
  | .skp x => ∃ k, hexOperand (s.readV x) = some k ∧ t = s.skipIf (s.isPressed k)
  | .sknp x => ∃ k, hexOperand (s.readV x) = some k ∧ t = s.skipIf (!s.isPressed k)
  | .ldVxDt x => t = (s.writeV x s.DT).advance
  | .ldVxK x => t = { s with latch := noKeys, run := .waitingForKey x }
  | .ldDtVx x => t = State.advance { s with DT := s.readV x }
  | .ldStVx x => t = State.advance { s with ST := s.readV x }
  | .addIVx x => t = State.advance { s with I := s.I + (s.readV x).setWidth 16 }
  | .ldFVx x => ∃ d, hexOperand (s.readV x) = some d ∧ t = State.advance { s with I := glyphAddress d }
  | .ldBVx x => s.I.toNat + 3 ≤ memSize ∧
      t = State.advance { s with mem := s.mem.writeBytes s.I.toNat (bcdDigits (s.readV x)) }
  | .ldMemVx x => s.I.toNat + (x.toNat + 1) ≤ memSize ∧
      t = State.advance { s with
        mem := s.mem.writeBytes s.I.toNat (registerBlock s x), I := indexAfterBlock s x }
  | .ldVxMem x => s.I.toNat + (x.toNat + 1) ≤ memSize ∧
      t = State.advance { s with V := loadedBlock s x s.I.toNat, I := indexAfterBlock s x }
  | .ldRVx x => x.toNat ≤ 7 ∧ t = State.advance { s with rpl := savedFlags s x }
  | .ldVxR x => x.toNat ≤ 7 ∧ t = State.advance { s with V := restoredBlock s x }

/-- An access that answers a next state was within memory, or it raised AddressOutOfBounds. -/
theorem accessThen_next {s t u : State} {a n : Nat} (h : accessThen s a n (.next u) = .next t) :
    (a + n ≤ memSize ∧ t = u) ∨
    (memSize < a + n ∧ raise (.addressOutOfBounds (lowestBadAddress a)) s = .next t) := by
  by_cases hn : a + n ≤ memSize
  · rw [accessThen_fits _ hn] at h
    cases h
    exact .inl ⟨hn, rfl⟩
  · rw [accessThen_past _ (Nat.not_le.1 hn)] at h
    exact .inr ⟨Nat.not_le.1 hn, h⟩

/-- An instruction that answers a next state raises an error or has its effect. -/
theorem exec_next {i : Instr} {s t : State} (h : exec i s = .next t) :
    (∃ k, raise k s = .next t) ∨ Effect s t i := by
  have access : ∀ {a n : Nat} {u : State}, accessThen s a n (.next u) = .next t →
      (∃ k, raise k s = .next t) ∨ (a + n ≤ memSize ∧ t = u) := by
    intro a n u h
    rcases accessThen_next h with h | ⟨-, h⟩
    · exact .inr h
    · exact .inl ⟨_, h⟩
  cases i with
  | ret =>
    simp only [exec, execRet] at h
    by_cases h0 : s.sp = 0
    · rw [popThen_empty _ h0] at h
      exact .inl ⟨_, h⟩
    · by_cases h1 : s.sp.toNat - 1 < stackDepth
      · rw [popThen_live _ h0 h1] at h
        cases h
        exact .inr ⟨h0, h1, rfl⟩
      · have h2 : stackDepth < s.sp.toNat := by
          unfold stackDepth at h1 ⊢
          omega
        rw [popThen_beyond _ h2] at h
        cases h
  | call nnn =>
    simp only [exec, execCall] at h
    by_cases h1 : s.sp.toNat < stackDepth
    · rw [pushThen_room _ _ h1] at h
      cases h
      exact .inr ⟨h1, rfl⟩
    · rw [pushThen_full _ _ (Nat.not_lt.1 h1)] at h
      exact .inl ⟨_, h⟩
  | drw x y n =>
    simp only [exec, execDrw] at h
    split at h
    · rename_i hn
      split at h
      · rename_i hm
        exact (access h).imp_right fun ⟨h1, h2⟩ => .inl ⟨hn, hm, h1, h2⟩
      · cases h
    · rename_i hn
      exact (access h).imp_right fun ⟨h1, h2⟩ => .inr ⟨hn, h1, h2⟩
  | skp x =>
    simp only [exec, execSkp] at h
    split at h
    · rename_i k hk
      cases h
      exact .inr ⟨k, hk, rfl⟩
    · cases h
  | sknp x =>
    simp only [exec, execSknp] at h
    split at h
    · rename_i k hk
      cases h
      exact .inr ⟨k, hk, rfl⟩
    · cases h
  | ldFVx x =>
    simp only [exec, execLdFVx] at h
    split at h
    · rename_i d hd
      cases h
      exact .inr ⟨d, hd, rfl⟩
    · cases h
  | ldBVx x => exact access h
  | ldMemVx x => exact access h
  | ldVxMem x => exact access h
  | ldRVx x =>
    simp only [exec, execLdRVx] at h
    split at h
    · rename_i hx
      cases h
      exact .inr ⟨hx, rfl⟩
    · cases h
  | ldVxR x =>
    simp only [exec, execLdVxR] at h
    split at h
    · rename_i hx
      cases h
      exact .inr ⟨hx, rfl⟩
    · cases h
  | addReg x y => cases h; exact .inr ⟨_, _, rfl⟩
  | sub x y => cases h; exact .inr ⟨_, _, rfl⟩
  | shr x y => cases h; exact .inr ⟨_, _, rfl⟩
  | subn x y => cases h; exact .inr ⟨_, _, rfl⟩
  | shl x y => cases h; exact .inr ⟨_, _, rfl⟩
  | _ => cases h; exact .inr rfl

/-- A step of the wait changes nothing, or it reports a latched key and ends the wait. -/
theorem completeWait_next {x : Nibble} {s t : State} (h : completeWait x s = .next t) :
    t = s ∨ ∃ k : Nibble, s.latch[k.toNat]'(k.isLt) = true ∧
      t = State.advance (State.countDraw { s.writeV x (k.setWidth 8) with latch := noKeys, run := .running }) := by
  unfold completeWait at h
  split at h
  · cases h
    exact .inl rfl
  · rename_i k hk
    cases h
    exact .inr ⟨k, (mem_latchedKeys s k).1 (chooseFrom_mem hk), rfl⟩

/-- A step of the wait always answers a next state. -/
theorem completeWait_total (x : Nibble) (s : State) : ∃ t, completeWait x s = .next t := by
  unfold completeWait
  split <;> exact ⟨_, rfl⟩

/-- A step that answers a next state: nothing in Halted, the wait, an error, or an instruction's effect. -/
theorem step_next {s t : State} (h : step s = .next t) :
    ((∃ e, s.run = .halted e) ∧ t = s) ∨
    (∃ x, s.run = .waitingForKey x ∧ completeWait x s = .next t) ∨
    (∃ k, s.run = .running ∧ raise k s = .next t) ∨
    (∃ i, s.run = .running ∧ s.pc.toNat + 2 ≤ memSize ∧ decode (s.mem.readWord s.pc.toNat) = .ok i ∧
      Effect s t i) := by
  rcases step_cases s with ⟨e, hr, hs⟩ | ⟨x, hr, hs⟩ | ⟨hr, -, hs⟩ | ⟨hr, -, hs⟩ | ⟨i, hr, hp, hd, hs⟩
  · rw [hs] at h
    cases h
    exact .inl ⟨⟨e, hr⟩, rfl⟩
  · exact .inr (.inl ⟨x, hr, hs ▸ h⟩)
  · exact .inr (.inr (.inl ⟨_, hr, hs ▸ h⟩))
  · exact .inr (.inr (.inl ⟨_, hr, hs ▸ h⟩))
  · rcases exec_next (hs ▸ h) with ⟨k, hk⟩ | he
    · exact .inr (.inr (.inl ⟨k, hr, hk⟩))
    · exact .inr (.inr (.inr ⟨i, hr, hp, hd, he⟩))

end Sys2Proof.Machine
end

