-- ==== Sys2Proof/Laws/Invariant.lean ====
section
/-! SUPPORT. The ways a transition keeps the invariant of Safety.lean: advancing, skipping, jumping, a mode change, a
load; and the bounds on pc and on decoded addresses that they need. -/

namespace Sys2Proof.Machine

/-- The pcs that follow a fetched opcode stay within R37, and a return address within R152. -/
theorem pc_bounds {p : Word} (h : p.toNat + 2 ≤ memSize) : p + 2 ≤ maxPc ∧ p + 2 ≤ 0x1000#16 ∧ p + 4 ≤ maxPc := by
  have e : memSize = 4096 := rfl
  rw [e] at h
  simp only [BitVec.le_def, BitVec.toNat_add, maxPc]
  simp
  omega

theorem addressFits_le_maxPc {a : Word} (h : addressFits a) : a ≤ maxPc := by
  have := BitVec.le_def.1 h
  rw [BitVec.le_def]
  simp [maxPc] at *
  omega

/-- BNNN's target stays within R37. -/
theorem jumpTargetV0_le_maxPc {s : State} {a : Word} (h : addressFits a) : jumpTargetV0 s a ≤ maxPc := by
  have h1 := BitVec.le_def.1 h
  have := (s.readV 0).isLt
  rw [BitVec.le_def, jumpTargetV0, BitVec.toNat_add]
  simp [maxPc] at *
  omega

/-- A state that differs in no field the invariant speaks of but memory and grid, and advances. -/
theorem State.Inv.advance {s u : State} (hs : s.Inv) (hp : s.pc.toNat + 2 ≤ memSize) (hr : s.run = .running)
    (hm : u.mem.wf) (hg : gridWf u.mode u.fb) (h1 : u.sp = s.sp) (h2 : u.stack = s.stack) (h3 : u.pc = s.pc)
    (h4 : u.run = s.run) : u.advance.Inv where
  mem := hm
  grid := hg
  stack := by
    have := hs.stack
    unfold stackWf at *
    simp only [State.advance_sp, State.advance_stack, h1, h2]
    exact this
  pc := by rw [State.advance_pc, h3]; exact (pc_bounds hp).1
  run := by simp [runWf, h4, hr]

theorem State.Inv.skipIf {s : State} (hs : s.Inv) (hp : s.pc.toNat + 2 ≤ memSize) (hr : s.run = .running) (c : Bool) :
    (s.skipIf c).Inv where
  mem := hs.mem
  grid := hs.grid
  stack := hs.stack
  pc := by
    rw [State.skipIf_pc]
    split
    · exact (pc_bounds hp).2.2
    · exact (pc_bounds hp).1
  run := by simp [runWf, hr]

theorem State.Inv.jump {s : State} (hs : s.Inv) (hr : s.run = .running) {a : Word} (ha : a ≤ maxPc) : (s.jump a).Inv where
  mem := hs.mem
  grid := hs.grid
  stack := hs.stack
  pc := ha
  run := by simp [runWf, hr]

/-- A mode change keeps the grid in form and changes mode, grid and counter alone (R242). -/
theorem setMode_keeps {m : Mode} {s : State} (h : gridWf s.mode s.fb) :
    gridWf (setMode m s).mode (setMode m s).fb ∧ (setMode m s).mem = s.mem ∧ (setMode m s).sp = s.sp ∧
      (setMode m s).stack = s.stack ∧ (setMode m s).pc = s.pc ∧ (setMode m s).run = s.run := by
  by_cases e : m = s.mode
  · subst e
    rw [setMode_same]
    exact ⟨h, rfl, rfl, rfl, rfl, rfl⟩
  · rw [setMode_other e]
    exact ⟨gridWf_cropGrid _ _, rfl, rfl, rfl, rfl, rfl⟩

/-- A load from any state gives a state that meets the invariant (R331, R337). -/
theorem load_inv (bytes : List Byte) (inputs : LoadInputs) (s : State) (h : inputs.memInit.wf) :
    (load bytes inputs s).Inv := by
  refine ⟨wf_loadedMemory _ _ h, ?_, ⟨by simp [load], by simp [load]⟩, by simp [load]; decide, ?_⟩
  · rw [gridWf_iff]
    simp [load]
  · by_cases hf : romFits bytes <;> simp [runWf, load, hf]

end Sys2Proof.Machine
end

