-- ==== Sys2Proof/Laws/PerInstr.lean ====
section
/-! SUPPORT. One statement about every instruction as syntax: its encoded word is selected by its row of the opcode
table (spec/30_encoding.md R102, R134), one lemma per constructor. -/

namespace Sys2Proof.Laws

/-! ### The words of each format under their masks -/

theorem selects_of_and {op mask value : Word} {name : String} (h : op &&& mask = value) :
    (OpcodeRow.mk name mask value).selects op = true := by
  simp [OpcodeRow.selects, h]

theorem and_encodeAddr (a : Nibble) (nnn : Word) : encodeAddr a nnn &&& 0xF000#16 = a ++ 0#12 := by
  rw [and_F000, opMajor_encodeAddr]

theorem and_encodeXNN (a x : Nibble) (nn : Byte) : encodeXNN a x nn &&& 0xF000#16 = a ++ 0#12 := by
  rw [and_F000, opMajor_encodeXNN]

theorem and_encodeX (a x : Nibble) (nn : Byte) : encodeXNN a x nn &&& 0xF0FF#16 = a ++ 0#4 ++ nn := by
  rw [and_F0FF, opMajor_encodeXNN, opNN_encodeXNN]

theorem and_encodeXY (a x y n : Nibble) : encodeXYN a x y n &&& 0xF00F#16 = a ++ 0#8 ++ n := by
  rw [and_F00F, opMajor_encodeXYN, opN_encodeXYN]

theorem and_encodeXYN (a x y n : Nibble) : encodeXYN a x y n &&& 0xF000#16 = a ++ 0#12 := by
  rw [and_F000, opMajor_encodeXYN]

end Sys2Proof.Laws

/-! ### The family -/

namespace Sys2Proof.Laws.TableRow

/-- The word of an instruction lies in the instruction's row. -/
def Statement (i : Instr) : Prop := i.row.selects (encode i) = true

theorem cls : Statement .cls := by unfold Statement; decide
theorem ret : Statement .ret := by unfold Statement; decide
theorem scd (n : Nibble) : Statement (.scd n) := by
  unfold Statement
  revert n
  decide
theorem low : Statement .low := by unfold Statement; decide
theorem high : Statement .high := by unfold Statement; decide
theorem jp (nnn : Word) : Statement (.jp nnn) :=
  selects_of_and ((and_encodeAddr _ _).trans (by decide))
theorem call (nnn : Word) : Statement (.call nnn) :=
  selects_of_and ((and_encodeAddr _ _).trans (by decide))
theorem seImm (x : Nibble) (nn : Byte) : Statement (.seImm x nn) :=
  selects_of_and ((and_encodeXNN _ _ _).trans (by decide))
theorem sneImm (x : Nibble) (nn : Byte) : Statement (.sneImm x nn) :=
  selects_of_and ((and_encodeXNN _ _ _).trans (by decide))
theorem seReg (x y : Nibble) : Statement (.seReg x y) :=
  selects_of_and ((and_encodeXY _ _ _ _).trans (by decide))
theorem ldImm (x : Nibble) (nn : Byte) : Statement (.ldImm x nn) :=
  selects_of_and ((and_encodeXNN _ _ _).trans (by decide))
theorem addImm (x : Nibble) (nn : Byte) : Statement (.addImm x nn) :=
  selects_of_and ((and_encodeXNN _ _ _).trans (by decide))
theorem ldReg (x y : Nibble) : Statement (.ldReg x y) :=
  selects_of_and ((and_encodeXY _ _ _ _).trans (by decide))
theorem or (x y : Nibble) : Statement (.or x y) :=
  selects_of_and ((and_encodeXY _ _ _ _).trans (by decide))
theorem and (x y : Nibble) : Statement (.and x y) :=
  selects_of_and ((and_encodeXY _ _ _ _).trans (by decide))
theorem xor (x y : Nibble) : Statement (.xor x y) :=
  selects_of_and ((and_encodeXY _ _ _ _).trans (by decide))
theorem addReg (x y : Nibble) : Statement (.addReg x y) :=
  selects_of_and ((and_encodeXY _ _ _ _).trans (by decide))
theorem sub (x y : Nibble) : Statement (.sub x y) :=
  selects_of_and ((and_encodeXY _ _ _ _).trans (by decide))
theorem shr (x y : Nibble) : Statement (.shr x y) :=
  selects_of_and ((and_encodeXY _ _ _ _).trans (by decide))
theorem subn (x y : Nibble) : Statement (.subn x y) :=
  selects_of_and ((and_encodeXY _ _ _ _).trans (by decide))
theorem shl (x y : Nibble) : Statement (.shl x y) :=
  selects_of_and ((and_encodeXY _ _ _ _).trans (by decide))
theorem sneReg (x y : Nibble) : Statement (.sneReg x y) :=
  selects_of_and ((and_encodeXY _ _ _ _).trans (by decide))
theorem ldI (nnn : Word) : Statement (.ldI nnn) :=
  selects_of_and ((and_encodeAddr _ _).trans (by decide))
theorem jpV0 (nnn : Word) : Statement (.jpV0 nnn) :=
  selects_of_and ((and_encodeAddr _ _).trans (by decide))
theorem rnd (x : Nibble) (nn : Byte) : Statement (.rnd x nn) :=
  selects_of_and ((and_encodeXNN _ _ _).trans (by decide))
theorem drw (x y n : Nibble) : Statement (.drw x y n) :=
  selects_of_and ((and_encodeXYN _ _ _ _).trans (by decide))
theorem skp (x : Nibble) : Statement (.skp x) :=
  selects_of_and ((and_encodeX _ _ _).trans (by decide))
theorem sknp (x : Nibble) : Statement (.sknp x) :=
  selects_of_and ((and_encodeX _ _ _).trans (by decide))
theorem ldVxDt (x : Nibble) : Statement (.ldVxDt x) :=
  selects_of_and ((and_encodeX _ _ _).trans (by decide))
theorem ldVxK (x : Nibble) : Statement (.ldVxK x) :=
  selects_of_and ((and_encodeX _ _ _).trans (by decide))
theorem ldDtVx (x : Nibble) : Statement (.ldDtVx x) :=
  selects_of_and ((and_encodeX _ _ _).trans (by decide))
theorem ldStVx (x : Nibble) : Statement (.ldStVx x) :=
  selects_of_and ((and_encodeX _ _ _).trans (by decide))
theorem addIVx (x : Nibble) : Statement (.addIVx x) :=
  selects_of_and ((and_encodeX _ _ _).trans (by decide))
theorem ldFVx (x : Nibble) : Statement (.ldFVx x) :=
  selects_of_and ((and_encodeX _ _ _).trans (by decide))
theorem ldBVx (x : Nibble) : Statement (.ldBVx x) :=
  selects_of_and ((and_encodeX _ _ _).trans (by decide))
theorem ldMemVx (x : Nibble) : Statement (.ldMemVx x) :=
  selects_of_and ((and_encodeX _ _ _).trans (by decide))
theorem ldVxMem (x : Nibble) : Statement (.ldVxMem x) :=
  selects_of_and ((and_encodeX _ _ _).trans (by decide))
theorem ldRVx (x : Nibble) : Statement (.ldRVx x) :=
  selects_of_and ((and_encodeX _ _ _).trans (by decide))
theorem ldVxR (x : Nibble) : Statement (.ldVxR x) :=
  selects_of_and ((and_encodeX _ _ _).trans (by decide))

end Sys2Proof.Laws.TableRow
end

