-- ==== Sys2Proof/Tests/Slice0.lean ====
section
/-! SUPPORT. Our own tests: the checks of WellFormed, words written out from the spec's encodings, one or two steps of
every instruction with the results of spec/95_test_vectors.md (its vector is named in each docstring), and for every
obligation with hypotheses a state and operands that meet them. -/

namespace Sys2Proof.Tests

open Sys2Proof.Machine

/-! ### States and results -/

/-- The next state, if there is one. -/
def nextOf : StepResult → Option State
  | .next t => some t
  | .fault _ => none
  | .refused _ => none

/-- The refusal, if there is one. -/
def refusalOf : StepResult → Option Refusal
  | .next _ => none
  | .fault _ => none
  | .refused r => some r

/-- The state with some registers set. -/
def withRegs (regs : List (Nibble × Byte)) (s : State) : State := regs.foldl (fun t r => t.writeV r.1 r.2) s

/-- The state with bytes of memory set. -/
def withBytes (a : Nat) (bytes : List Byte) (s : State) : State := { s with mem := s.mem.writeBytes a bytes }

/-- The state with one more pixel set. -/
def withPixel (x y : Nat) (s : State) : State := { s with fb := flipPixel s.fb x y }

/-- The state after reset at another pc. -/
def atPc (pc : Word) : State := { State.reset with pc := pc }

/-- The state after reset with these registers. -/
def regs (l : List (Nibble × Byte)) : State := withRegs l State.reset

/-- One step that runs the word. -/
def run1 (op : Nat) (s : State) : StepResult := step (s.withFetchWord 16 op)

/-- What a test looks at in the state after one step that runs the word. -/
def look {α : Type} (op : Nat) (s : State) (f : State → α) : Option α := (nextOf (run1 op s)).map f

/-- VX and VF after the step. -/
def lookVF (op : Nat) (s : State) (x : Nibble) : Option (Byte × Byte) := look op s fun t => (t.readV x, t.readV 0xF)

/-- The options of 8XY6 and of FX55 at their other value. -/
def inPlaceShifts : Cfg := { defaultCfg with shiftUsesVy := false }
def keepIndex : Cfg := { defaultCfg with loadStoreIncrementsI := false }

/-! ### WellFormed: an address that does not fit 12 bits is refused -/

theorem test_wf_jp : Instr.wf (.jp 0xFFF) = true ∧ Instr.wf (.jp 0x1000) = false := by decide
theorem test_wf_call : Instr.wf (.call 0xFFF) = true ∧ Instr.wf (.call 0x1000) = false := by decide
theorem test_wf_ldI : Instr.wf (.ldI 0xFFF) = true ∧ Instr.wf (.ldI 0xFFFF) = false := by decide
theorem test_wf_jpV0 : Instr.wf (.jpV0 0xFFF) = true ∧ Instr.wf (.jpV0 0x1000) = false := by decide
theorem test_wf_no_check_left : Instr.wf (.drw 0xF 0xF 0xF) = true ∧ Instr.wf (.ldRVx 8) = true := by decide

/-! ### Words written out bit by bit from R102, R106 to R109 -/

theorem test_decode_display :
    decode 0b0000000011100000 = .ok .cls ∧ decode 0b0000000011000011 = .ok (.scd 3) ∧
    decode 0b0000000011111110 = .ok .low ∧ decode 0b0000000011111111 = .ok .high ∧
    decode 0b1101001101000101 = .ok (.drw 3 4 5) := ⟨rfl, rfl, rfl, rfl, rfl⟩

theorem test_decode_control :
    decode 0b0000000011101110 = .ok .ret ∧ decode 0b0001001000110100 = .ok (.jp 0x234) ∧
    decode 0b0010101111001101 = .ok (.call 0xBCD) ∧ decode 0b1011000100100011 = .ok (.jpV0 0x123) ∧
    decode 0b0011000000000101 = .ok (.seImm 0 5) ∧ decode 0b0100001100000111 = .ok (.sneImm 3 7) ∧
    decode 0b0101000100100000 = .ok (.seReg 1 2) ∧ decode 0b1001000100100000 = .ok (.sneReg 1 2) :=
  ⟨rfl, rfl, rfl, rfl, rfl, rfl, rfl, rfl⟩

theorem test_decode_alu :
    decode 0b0110000000000101 = .ok (.ldImm 0 5) ∧ decode 0b0111001000000001 = .ok (.addImm 2 1) ∧
    decode 0b1000101010110000 = .ok (.ldReg 0xA 0xB) ∧ decode 0b1000101010110001 = .ok (.or 0xA 0xB) ∧
    decode 0b1000101010110010 = .ok (.and 0xA 0xB) ∧ decode 0b1000101010110011 = .ok (.xor 0xA 0xB) ∧
    decode 0b1000101010110100 = .ok (.addReg 0xA 0xB) ∧ decode 0b1000101010110101 = .ok (.sub 0xA 0xB) :=
  ⟨rfl, rfl, rfl, rfl, rfl, rfl, rfl, rfl⟩

theorem test_decode_alu_shifts :
    decode 0b1000101010110110 = .ok (.shr 0xA 0xB) ∧ decode 0b1000101010110111 = .ok (.subn 0xA 0xB) ∧
    decode 0b1000101010111110 = .ok (.shl 0xA 0xB) ∧ decode 0b1100001100001111 = .ok (.rnd 3 0x0F) :=
  ⟨rfl, rfl, rfl, rfl⟩

theorem test_decode_index :
    decode 0b1010001011110000 = .ok (.ldI 0x2F0) ∧ decode 0b1111010100011110 = .ok (.addIVx 5) ∧
    decode 0b1111101000101001 = .ok (.ldFVx 0xA) ∧ decode 0b1111010100110011 = .ok (.ldBVx 5) ∧
    decode 0b1111000101010101 = .ok (.ldMemVx 1) ∧ decode 0b1111001001100101 = .ok (.ldVxMem 2) ∧
    decode 0b1111000101110101 = .ok (.ldRVx 1) ∧ decode 0b1111000010000101 = .ok (.ldVxR 0) :=
  ⟨rfl, rfl, rfl, rfl, rfl, rfl, rfl, rfl⟩

theorem test_decode_keypad_timers :
    decode 0b1110000110011110 = .ok (.skp 1) ∧ decode 0b1110000110100001 = .ok (.sknp 1) ∧
    decode 0b1111001000000111 = .ok (.ldVxDt 2) ∧ decode 0b1111001100001010 = .ok (.ldVxK 3) ∧
    decode 0b1111001000010101 = .ok (.ldDtVx 2) ∧ decode 0b1111001000011000 = .ok (.ldStVx 2) :=
  ⟨rfl, rfl, rfl, rfl, rfl, rfl⟩

/-- E-vectors with N, NN or the word outside the table (R108, R110); and a byte too few (R100). -/
theorem test_decode_illegal :
    decode 0x0000 = .error (.illegal 0x0000) ∧ decode 0x0123 = .error (.illegal 0x0123) ∧
    decode 0x00FB = .error (.illegal 0x00FB) ∧ decode 0x5121 = .error (.illegal 0x5121) ∧
    decode 0x8128 = .error (.illegal 0x8128) ∧ decode 0xE19F = .error (.illegal 0xE19F) ∧
    decode 0xF030 = .error (.illegal 0xF030) ∧ decodeBytes [0x12] = .error .truncated :=
  ⟨rfl, rfl, rfl, rfl, rfl, rfl, rfl, rfl⟩

/-- The rest of the bytes follows the opcode (R100). -/
theorem test_decode_rest : decodeBytes [0x60, 0x05, 0x12] = .ok (.ldImm 0 5, [0x12]) := rfl

/-! ### The step -/

/-- X3: the word at 0xFFF cannot be fetched. -/
theorem test_fetch_past : (nextOf (step (atPc 0xFFF))).map (·.run) =
    some (.halted { error := .addressOutOfBounds 0x1000, pc := 0xFFF }) := by decide

/-- X1: an illegal word halts with its opcode and pc. -/
theorem test_illegal_halts : look 0x5121 State.reset (fun t => (t.run, t.pc)) =
    some (.halted { error := .illegalInstruction 0x5121, pc := 0x200 }, 0x200) := by decide

/-! ### Control flow -/

/-- C1v -/
theorem test_jp : look 0x1200 (atPc 0x204) (·.pc) = some 0x200 := by decide
/-- C3v -/
theorem test_call : look 0x2300 State.reset (fun t => (t.pc, t.sp, t.stack[0])) = some (0x300, 1, 0x202) := by decide
/-- C4v -/
theorem test_call_full : look 0x2300 { State.reset with sp := 16 } (fun t => (t.run, t.sp, t.pc)) =
    some (.halted { error := .stackOverflow, pc := 0x200 }, 16, 0x200) := by decide
/-- C6v -/
theorem test_ret : look 0x00EE { State.reset with sp := 2, stack := (State.reset.stack.set 0 0x202).set 1 0x404 }
    (fun t => (t.pc, t.sp)) = some (0x404, 1) := by decide
/-- C5v -/
theorem test_ret_empty : look 0x00EE State.reset (·.run) =
    some (.halted { error := .stackUnderflow, pc := 0x200 }) := by decide
/-- C7v -/
theorem test_jpV0 : look 0xB300 (regs [(0, 0x10)]) (·.pc) = some 0x310 := by decide
/-- C8v -/
theorem test_jpV0_unmasked : look 0xBFFF (regs [(0, 0xFF)]) (·.pc) = some 0x10FE := by decide
/-- C9v, C10v -/
theorem test_seImm : look 0x3005 (regs [(0, 5)]) (·.pc) = some 0x204 ∧ look 0x3005 (regs [(0, 4)]) (·.pc) = some 0x202 := by
  decide
/-- C11v, C12v -/
theorem test_sneImm : look 0x4307 (regs [(3, 7)]) (·.pc) = some 0x202 ∧ look 0x4307 (regs [(3, 8)]) (·.pc) = some 0x204 := by
  decide
/-- C13v, C14v -/
theorem test_seReg : look 0x5120 (regs [(1, 0x33), (2, 0x33)]) (·.pc) = some 0x204 ∧
    look 0x5120 (regs [(1, 0x33), (2, 0x34)]) (·.pc) = some 0x202 := by decide
/-- C16v, C17v -/
theorem test_sneReg : look 0x9120 (regs [(1, 1), (2, 2)]) (·.pc) = some 0x204 ∧
    look 0x9110 State.reset (·.pc) = some 0x202 := by decide

/-! ### Register and arithmetic -/

/-- A2 -/
theorem test_ldImm : look 0x6FAA State.reset (fun t => (t.readV 0xF, t.pc)) = some (0xAA, 0x202) := by decide
/-- A4 -/
theorem test_addImm_wraps : lookVF 0x7201 (regs [(2, 0xFF), (0xF, 7)]) 2 = some (0, 7) := by decide
/-- A5 -/
theorem test_addImm_vf : lookVF 0x7F02 (regs [(0xF, 0xFF)]) 0xF = some (1, 1) := by decide
/-- A21 -/
theorem test_ldReg : lookVF 0x8010 (regs [(1, 0x42)]) 0 = some (0x42, 0) := by decide
/-- A22 -/
theorem test_or : lookVF 0x8011 (regs [(0, 0x0F), (1, 0xF0), (0xF, 7)]) 0 = some (0xFF, 7) := by decide
/-- A22 -/
theorem test_and : lookVF 0x8012 (regs [(0, 0x0F), (1, 0xF0), (0xF, 7)]) 0 = some (0, 7) := by decide
/-- A22, A23 -/
theorem test_xor : lookVF 0x8013 (regs [(0, 0x0F), (1, 0xF0), (0xF, 7)]) 0 = some (0xFF, 7) ∧
    lookVF 0x8003 (regs [(0, 0x5A)]) 0 = some (0, 0) := by decide
/-- A8 -/
theorem test_addReg_carry : lookVF 0x8014 (regs [(0, 0xFF), (1, 1)]) 0 = some (0, 1) := by decide
/-- A7 -/
theorem test_addReg_vf : lookVF 0x8F14 (regs [(0xF, 0xC8), (1, 0x64)]) 0xF = some (1, 1) := by decide
/-- A11, A13 -/
theorem test_sub : lookVF 0x8015 (regs [(0, 9), (1, 9)]) 0 = some (0, 1) ∧
    lookVF 0x8015 (regs [(1, 1)]) 0 = some (0xFF, 0) := by decide
/-- A12 -/
theorem test_sub_vf : lookVF 0x8F15 (regs [(0xF, 5), (1, 7)]) 0xF = some (0, 0) := by decide
/-- A17, A18 -/
theorem test_shr : lookVF 0x8016 (regs [(0, 0xAA), (1, 5)]) 0 = some (2, 1) ∧
    lookVF 0x8016 { regs [(0, 0xAA), (1, 5)] with cfg := inPlaceShifts } 0 = some (0x55, 0) := by decide
/-- A26 -/
theorem test_shr_vf : lookVF 0x8FF6 (regs [(0xF, 0x80)]) 0xF = some (0, 0) := by decide
/-- A14, A15 -/
theorem test_subn : lookVF 0x8017 (regs [(0, 5), (1, 7)]) 0 = some (2, 1) ∧
    lookVF 0x8017 (regs [(0, 7), (1, 5)]) 0 = some (0xFE, 0) := by decide
/-- A20 -/
theorem test_shl : lookVF 0x801E (regs [(0, 1), (1, 0x80)]) 0 = some (0, 1) ∧
    lookVF 0x801E { regs [(0, 1), (1, 0x80)] with cfg := inPlaceShifts } 0 = some (2, 0) := by decide
/-- A19 -/
theorem test_shl_vf : lookVF 0x8F1E (regs [(1, 0x81)]) 0xF = some (1, 1) := by decide
/-- A24: whatever the draw, V3 is the draw under the mask. -/
theorem test_rnd : look 0xC30F State.reset (·.readV 3) = some (Config.rand 0 &&& 0x0F) := rfl

/-! ### Index and memory -/

/-- M1 -/
theorem test_ldI : look 0xA2F0 State.reset (·.I) = some 0x2F0 := by decide
/-- M2, M3 -/
theorem test_addIVx : look 0xF51E { regs [(5, 3)] with I := 0xFFE } (fun t => (t.I, t.readV 0xF)) = some (0x1001, 0) ∧
    look 0xF01E { regs [(0, 2)] with I := 0xFFFF } (·.I) = some 1 := by decide
/-- M4 -/
theorem test_ldFVx : look 0xFA29 (regs [(0xA, 0xA)]) (·.I) = some 0x032 := by decide
/-- M5 -/
theorem test_ldFVx_refused : refusalOf (run1 0xF029 (regs [(0, 0x10)])) = some (.fontDigitOutOfRange 0x200) := by decide
/-- M6 -/
theorem test_ldBVx : look 0xF433 { regs [(4, 0xFE)] with I := 0x300 } (fun t => (t.mem.readBytes 0x300 3, t.I)) =
    some ([2, 5, 4], 0x300) := by decide
/-- M8 -/
theorem test_ldBVx_past : look 0xF433 { regs [(4, 7)] with I := 0xFFE } (fun t => (t.run, t.mem.readBytes 0xFFE 2)) =
    some (.halted { error := .addressOutOfBounds 0x1000, pc := 0x200 }, [0, 0]) := by decide
/-- M9, M10 -/
theorem test_ldMemVx : look 0xF155 { regs [(0, 1), (1, 2)] with I := 0x300 } (fun t => (t.mem.readBytes 0x300 3, t.I)) =
      some ([1, 2, 0], 0x302) ∧
    look 0xF155 { regs [(0, 1), (1, 2)] with I := 0x300, cfg := keepIndex } (·.I) = some 0x300 := by decide
/-- M12 -/
theorem test_ldMemVx_past : look 0xF155 { regs [(0, 1)] with I := 0xFFF } (fun t => (t.run, t.mem.read 0xFFF, t.I)) =
    some (.halted { error := .addressOutOfBounds 0x1000, pc := 0x200 }, 0, 0xFFF) := by decide
/-- M14 -/
theorem test_ldVxMem : look 0xF265 (withBytes 0x300 [2, 5, 4, 9] { State.reset with I := 0x300, cfg := keepIndex })
    (fun t => (t.readV 0, t.readV 1, t.readV 2, t.readV 3, t.I)) = some (2, 5, 4, 0, 0x300) := by decide
/-- M13 -/
theorem test_ldVxMem_past : look 0xF065 { State.reset with I := 0x1000 } (·.run) =
    some (.halted { error := .addressOutOfBounds 0x1000, pc := 0x200 }) := by decide
/-- M17 -/
theorem test_ldRVx : look 0xF175 (regs [(0, 9), (1, 8), (2, 7)]) (fun t => t.rpl.toList) =
    some [9, 8, 0, 0, 0, 0, 0, 0] := by decide
/-- M18 -/
theorem test_ldVxR : look 0xF085 { State.reset with rpl := State.reset.rpl.set 0 9 } (·.readV 0) = some 9 := by decide
/-- M19 -/
theorem test_flags_refused : refusalOf (run1 0xF875 State.reset) = some (.rplSlotOutOfRange 0x200) ∧
    refusalOf (run1 0xFF85 State.reset) = some (.rplSlotOutOfRange 0x200) := by decide

/-! ### Display -/

/-- D1v -/
theorem test_cls : look 0x00E0 (withPixel 5 3 State.reset) (fun t => t.pixel 5 3) = some false := by decide
/-- D3v: the sprite wraps at the right edge. -/
theorem test_drw_wraps : look 0xD011 (withBytes 0x300 [0xFF] { regs [(0, 0x3E)] with I := 0x300 })
    (fun t => (t.fb[0] == 0xC00000000000003F#128, t.readV 0xF)) = some (true, 0) := by decide
/-- D13v: 16 columns, the byte at the lower address left. -/
theorem test_drw_big : look 0xD010 (withBytes 0x300 [0x80, 0x01] { State.reset with mode := .extended, I := 0x300 })
    (fun t => (t.fb[0] == 0x8001#128, t.fb[1] == 0#128)) = some (true, true) := by decide
/-- D15v, D16v -/
theorem test_scd : look 0x00C3 (withPixel 5 0 State.reset) (fun t => (t.pixel 5 0, t.pixel 5 3)) = some (false, true) ∧
    look 0x00C3 (withPixel 5 30 State.reset) (fun t => t.fb.toList.all (· == 0)) = some true := by decide
/-- D19v -/
theorem test_low : look 0x00FE (withPixel 1 1 State.reset) (fun t => (t.mode, t.pixel 1 1, t.pc)) =
    some (.base, true, 0x202) := by decide
/-- D18v -/
theorem test_high : look 0x00FF State.reset (fun t => (t.mode, t.pc)) = some (.extended, 0x202) := by decide

/-! ### Keypad and timers -/

/-- K1, K2 -/
theorem test_skp : look 0xE19E (setKey 5 true (regs [(1, 5)])) (·.pc) = some 0x204 ∧
    look 0xE19E (regs [(1, 5)]) (·.pc) = some 0x202 := by decide
/-- K3 -/
theorem test_sknp : look 0xE1A1 (regs [(1, 5)]) (·.pc) = some 0x204 := by decide
/-- K4 -/
theorem test_key_refused : refusalOf (run1 0xE19E (regs [(1, 0x10)])) = some (.keyIndexOutOfRange 0x200) ∧
    refusalOf (run1 0xE1A1 (regs [(1, 0x10)])) = some (.keyIndexOutOfRange 0x200) := by decide
/-- K8 -/
theorem test_ldVxK : look 0xF30A (setKey 3 true (atPc 0x300)) (fun t => (t.run, t.latch[3], t.pc, t.status)) =
    some (.waitingForKey 3, false, 0x300, .stillWaiting) := by decide
/-- K10 -/
theorem test_ldVxK_ends : (nextOf (step (setKey 0xB true { atPc 0x300 with run := .waitingForKey 3 }))).map
    (fun t => (t.readV 3, t.latch[0xB], t.run, t.pc)) = some (0x0B, false, .running, 0x302) := by decide
/-- K13 -/
theorem test_ldVxDt : look 0xF207 { State.reset with DT := 0x3C } (·.readV 2) = some 0x3C := by decide
/-- K14 -/
theorem test_ldDtVx : look 0xF215 (regs [(2, 0x3C)]) (·.DT) = some 0x3C := by decide
/-- K15 -/
theorem test_ldStVx : look 0xF218 (regs [(2, 1)]) (fun t => (t.ST, t.isSoundActive, (tick t).isSoundActive)) =
    some (1, true, false) := by decide
/-- K16, K17 -/
theorem test_tick : tick State.reset = State.reset ∧
    (tick { State.reset with DT := 2, run := .waitingForKey 3 }).DT = 1 := ⟨rfl, rfl⟩
/-- K5, K6, K7 -/
theorem test_setKey : (setKey 5 true State.reset).latch[5] = true ∧
    (setKey 5 true { setKey 5 true State.reset with latch := noKeys }).latch[5] = false ∧
    (setKey 5 false (setKey 5 true State.reset)).latch[5] = true := by decide

/-! ### Reset -/

/-- What the loads of these tests take as free inputs. -/
def zeroInputs : LoadInputs := { memInit := [], stackInit := Vector.replicate 16 0 }

/-- R1v -/
theorem test_load : (load [0x60, 0x05] zeroInputs (regs [(4, 4)])).readV 4 = 0 ∧
    (load [0x60, 0x05] zeroInputs (setKey 2 true State.reset)).keys[2] = true ∧
    (load [0x60, 0x05] zeroInputs State.reset).mem = [(0x200, 0x60), (0x201, 0x05)] := by decide +kernel
/-- R3v -/
theorem test_load_mode : (load [] zeroInputs
    { State.reset with cfg := { defaultCfg with extendedModeDefault := true } }).mode = .extended := by decide

/-! ### States and operands that meet the hypotheses of the obligations -/

/-- A state that is not the reset state and meets the invariant: registers, a stack entry, a pixel, a wait. -/
def busy : State :=
  { withBytes 0x300 [0x12, 0x34] (withPixel 5 3 (regs [(0, 1), (3, 0xFE)])) with
    I := 0x300, sp := 1, stack := State.reset.stack.set 0 0x1000, pc := 0xFFE }

/-- The same, with the word at its pc. -/
def busyAt (op : Nat) : State := busy.withFetchWord 16 op

theorem test_meets_inv (op : Nat) (h : (busyAt op).mem.wf) : (busyAt op).Inv where
  mem := h
  grid := (by decide : gridWf busy.mode busy.fb)
  stack := (by decide : stackWf busy)
  pc := (by decide : (0xFFE#16 : Word) ≤ maxPc)
  run := trivial

theorem test_meets_EncodeThenDecode : Instr.wf (.jpV0 0xFFF) = true := by decide
theorem test_meets_DecodeThenEncode : decode 0xBFFF = .ok (.jpV0 0xFFF) := rfl
theorem test_meets_DecodeSelectsTheUniqueRow :
    decode 0x00CF = .ok (.scd 0xF) ∧ decode 0x0100 = .error (.illegal 0x0100) := ⟨rfl, rfl⟩
theorem test_meets_IllegalWordsHalt : (busyAt 0xFFFF).run = .running ∧ (busyAt 0xFFFF).pc = 0xFFE ∧
    (busyAt 0xFFFF).mem.readWord 0xFFE = 0xFFFF ∧ IllegalWord 0xFFFF :=
  ⟨rfl, rfl, by decide, by unfold IllegalWord; decide⟩
theorem test_meets_StepRunsTheDecodedInstruction : (busyAt 0x6005).run = .running ∧ (busyAt 0x6005).pc = 0xFFE ∧
    (0x6005#16).extractLsb' 8 8 = (busyAt 0x6005).mem.read 0xFFE ∧
    (0x6005#16).extractLsb' 0 8 = (busyAt 0x6005).mem.read 0xFFF ∧ decode 0x6005 = .ok (.ldImm 0 5) :=
  ⟨rfl, rfl, by decide, by decide, rfl⟩
theorem test_meets_FetchPastTheTopRaises : (atPc 0xFFF).run = .running ∧ (atPc 0x1000).run = .running ∧
    (0xFFF#16 : Word) < (atPc 0x1000).pc := ⟨rfl, rfl, by decide⟩

/-- A halted state. -/
def halted : State := { busy with run := .halted { error := .stackUnderflow, pc := 0xFFE } }

theorem test_meets_HaltedIsTerminal : (∃ e, halted.run = .halted e) ∧
    (∃ t, transition .tick halted = .next t) ∧ (List.replicate 3584 (0x60 : Byte)).length ≤ 3584 :=
  ⟨⟨_, rfl⟩, ⟨_, rfl⟩, Nat.le_of_eq List.length_replicate⟩

/-- A waiting state, with or without a latched key. -/
def waiting (keys : List Nibble) : State :=
  keys.foldl (fun s k => setKey k true s) { busy with run := .waitingForKey 0xF }

theorem test_meets_StatusOfAStep : (waiting [9]).run = .waitingForKey 0xF ∧ (waiting [9]).latch ≠ noKeys ∧
    (∃ t e, step (busyAt 0xFFFF) = .next t ∧ t.run = .halted e) ∧
    (∃ t, step (busyAt 0xF30A) = .next t ∧ t.run = .waitingForKey 3) ∧
    (∃ t, step (busyAt 0x6005) = .next t ∧ t.run = .running) :=
  ⟨rfl, by decide, ⟨_, _, rfl, rfl⟩, ⟨_, rfl, rfl⟩, ⟨_, rfl, rfl⟩⟩
theorem test_meets_RaisingWritesOnlyRun : (busyAt 0xFFFF).run = .running ∧
    ∃ t e, step (busyAt 0xFFFF) = .next t ∧ t.run = .halted e := ⟨rfl, _, _, rfl, rfl⟩
theorem test_meets_ErrorsAreRaisedExactly :
    raisedError .ret State.reset = some .stackUnderflow ∧
    raisedError (.call 0) { State.reset with sp := 16 } = some .stackOverflow ∧
    raisedError (.ldBVx 0) { State.reset with I := 0xFFE } = some (.addressOutOfBounds 0x1000) ∧
    raisedError (.ldMemVx 0xF) { State.reset with I := 0xFF1 } = some (.addressOutOfBounds 0x1000) ∧
    raisedError (.ldVxMem 0) { State.reset with I := 0x1001 } = some (.addressOutOfBounds 0x1001) ∧
    raisedError (.drw 0 0 1) { State.reset with I := 0x1000 } = some (.addressOutOfBounds 0x1000) ∧
    raisedError (.ldBVx 0) { State.reset with I := 0xFFD } = none ∧
    (∃ t, exec (.ldBVx 0) { State.reset with I := 0xFFD } = .next t) :=
  ⟨rfl, rfl, rfl, rfl, rfl, rfl, rfl, ⟨_, rfl⟩⟩
theorem test_meets_RefusedExactlyInTheFourCases :
    refusalOf (exec (.drw 0 1 0) busy) = some (.spriteHeightZero 0xFFE) ∧
    refusalOf (exec (.skp 3) busy) = some (.keyIndexOutOfRange 0xFFE) ∧
    refusalOf (exec (.ldFVx 3) busy) = some (.fontDigitOutOfRange 0xFFE) ∧
    refusalOf (exec (.ldRVx 8) busy) = some (.rplSlotOutOfRange 0xFFE) := ⟨rfl, rfl, rfl, rfl⟩
theorem test_meets_StepKeepsTheInvariant : (busyAt 0xF333).Inv ∧ ∃ t, step (busyAt 0xF333) = .next t :=
  ⟨test_meets_inv _ (by decide), _, rfl⟩
theorem test_meets_EveryScheduleKeepsTheInvariant : (busyAt 0x2300).Inv ∧
    (∀ e ∈ [Event.tick, .setKey 4 true, .step], e.wf) ∧
    ∃ t, runSchedule [.tick, .setKey 4 true, .step] (busyAt 0x2300) = .next t := by
  refine ⟨test_meets_inv _ (by decide), ?_, _, rfl⟩
  simp [Event.wf]
theorem test_meets_InvariantStatesNeverFault : (busyAt 0x00EE).Inv := test_meets_inv _ (by decide)
theorem test_meets_ConfigurationIsFixed : ∃ t, transition (.load [0x12] zeroInputs) busy = .next t := ⟨_, rfl⟩
theorem test_meets_OnlyTheHostSetsKeys : (∀ k p, Event.step ≠ .setKey k p) ∧
    ∃ t, transition .step (busyAt 0x6005) = .next t := ⟨fun _ _ => by simp, _, rfl⟩
theorem test_meets_MemoryWriters :
    (∃ t, exec (.ldBVx 3) busy = .next t ∧ t.mem.read 0x302 ≠ busy.mem.read 0x302) ∧
    (∃ t, exec (.ldMemVx 0) busy = .next t ∧ t.mem.read 0x300 ≠ busy.mem.read 0x300) :=
  ⟨⟨_, rfl, by decide⟩, ⟨_, rfl, by decide⟩⟩
theorem test_meets_StackWriters : (∃ t, exec .ret busy = .next t ∧ t.sp ≠ busy.sp) ∧
    (∃ t, exec (.call 0x300) busy = .next t ∧ t.sp ≠ busy.sp) ∧
    (∃ t, exec (.call 0x300) { busy with pc := 0x200 } = .next t ∧ t.stack ≠ busy.stack) :=
  ⟨⟨_, rfl, by decide⟩, ⟨_, rfl, by decide⟩, ⟨_, rfl, by decide⟩⟩
theorem test_meets_DisplayWriters : (∃ t, exec .cls busy = .next t ∧ t.fb ≠ busy.fb) ∧
    (∃ t, exec .high busy = .next t ∧ t.mode ≠ busy.mode) := ⟨⟨_, rfl, by decide⟩, ⟨_, rfl, by decide⟩⟩
theorem test_meets_TimerAndFlagStorageWriters :
    (∃ t, step (busyAt 0xF315) = .next t ∧ t.DT ≠ (busyAt 0xF315).DT) ∧
    (∃ t, step (busyAt 0xF318) = .next t ∧ t.ST ≠ (busyAt 0xF318).ST) ∧
    (∃ t, step (busyAt 0xF075) = .next t ∧ t.rpl ≠ (busyAt 0xF075).rpl) :=
  ⟨⟨_, rfl, by decide⟩, ⟨_, rfl, by decide⟩, ⟨_, rfl, by decide⟩⟩
theorem test_meets_IndexWriters : (∃ t, exec (.ldI 0xFFF) busy = .next t ∧ t.I ≠ busy.I) ∧
    (∃ t, exec (.addIVx 0) busy = .next t ∧ t.I ≠ busy.I) ∧
    (∃ t, exec (.ldFVx 0) busy = .next t ∧ t.I ≠ busy.I) ∧
    (∃ t, exec (.ldMemVx 0) busy = .next t ∧ t.I ≠ busy.I) :=
  ⟨⟨_, rfl, by decide⟩, ⟨_, rfl, by decide⟩, ⟨_, rfl, by decide⟩, ⟨_, rfl, by decide⟩⟩
theorem test_meets_VFWriters : (∃ t, step (waiting [4]) = .next t ∧ t.readV 0xF ≠ (waiting [4]).readV 0xF) ∧
    (∃ t, step (busyAt 0x6F01) = .next t ∧ t.readV 0xF ≠ (busyAt 0x6F01).readV 0xF) ∧
    (∃ t, step (busyAt 0x8005) = .next t ∧ t.readV 0xF ≠ (busyAt 0x8005).readV 0xF) :=
  ⟨⟨_, rfl, by decide⟩, ⟨_, rfl, by decide⟩, ⟨_, rfl, by decide⟩⟩
theorem test_meets_LatchIsClearedExactly :
    (∃ t, transition .step (setKey 7 true (busyAt 0xF30A)) = .next t ∧
      (setKey 7 true (busyAt 0xF30A)).latch[7] = true ∧ t.latch[7] = false ∧
      ClearsTheLatch .step (setKey 7 true (busyAt 0xF30A)) t) ∧
    (∃ t, transition .step (waiting [7]) = .next t ∧ ClearsTheLatch .step (waiting [7]) t) ∧
    (∃ t, transition (.load [] zeroInputs) (waiting [7]) = .next t ∧
      ClearsTheLatch (.load [] zeroInputs) (waiting [7]) t) :=
  ⟨⟨_, rfl, by decide, by decide, .inl ⟨3, rfl, rfl, rfl⟩⟩, ⟨_, rfl, .inr (.inl ⟨0xF, rfl, rfl, rfl⟩)⟩,
    ⟨_, rfl, .inr (.inr ⟨_, _, rfl⟩)⟩⟩

/-- For the statements on encodings: each mask and value selects a word. -/
theorem test_meets_EncodedBy : (0x6FAA#16) &&& 0xF000 = 0x6000 ∧ (0x8FE0#16) &&& 0xF00F = 0x8000 ∧
    (0x8F1E#16) &&& 0xF00F = 0x800E ∧ (0xFF85#16) &&& 0xF0FF = 0xF085 ∧ (0xEFA1#16) &&& 0xF0FF = 0xE0A1 ∧
    (0x00CF#16) &&& 0xFFF0 = 0x00C0 := by decide
theorem test_meets_ShiftsFollowTheOption :
    (5 = (if defaultCfg.shiftUsesVy = true then (regs [(1, 5)]).readV 1 else (regs [(1, 5)]).readV 0).toNat) ∧
    (0 = (if inPlaceShifts.shiftUsesVy = true then (regs [(1, 5)]).readV 1 else (regs [(1, 5)]).readV 0).toNat) := by
  decide
theorem test_meets_JumpsSetThePc : (0xFFF#16 : Word) ≤ 0xFFF#16 := by decide
theorem test_meets_CallPushesTheReturnAddress : State.sp { busy with sp := 15 } = 15#8 ∧
    (State.sp { busy with sp := 15 }).toNat < 16 ∧ State.sp { busy with sp := 16 } = 16#8 := by decide
theorem test_meets_ReturnPopsTheStack : (State.sp { busy with sp := 16 }).toNat - 1 < 16 ∧ 0 < busy.sp.toNat ∧
    State.reset.sp = 0#8 := by decide
theorem test_meets_CallThenReturn : (State.sp { busy with sp := 15 }).toNat < 16 ∧
    ∃ t, exec (.call 0x300) { busy with sp := 15 } = .next t ∧ (tick t).sp = t.sp ∧ (tick t).stack = t.stack :=
  ⟨by decide, _, rfl, rfl, rfl⟩
theorem test_meets_SeventeenthCallOverflows : State.reset.sp = 0#8 ∧ (List.replicate 16 (0x200 : Word)).length = 16 := by decide
theorem test_meets_RegisterSkips : (regs [(0, 5)]).readV 0 = 5 ∧ (regs [(0, 5)]).readV 0 ≠ (regs [(0, 5)]).readV 1 := by decide
theorem test_meets_SettingTheIndex : ((regs [(0, 0xF)]).readV 0).toNat ≤ 0xF ∧ 0xF < ((regs [(0, 0x10)]).readV 0).toNat := by
  decide
theorem test_meets_BcdStoresThreeDigits : (State.I { busy with I := 0xFFD }).toNat + 2 ≤ 0xFFF ∧
    0xFFF < (State.I { busy with I := 0xFFE }).toNat + 2 := by decide
theorem test_meets_BlockStore : (State.I { busy with I := 0xFF0 }).toNat + (0xF : Nibble).toNat ≤ 0xFFF ∧
    0xFFF < (State.I { busy with I := 0xFF1 }).toNat + (0xF : Nibble).toNat := by decide
theorem test_meets_BlockLoad : (State.I { busy with I := 0xFFF }).toNat + (0 : Nibble).toNat ≤ 0xFFF ∧
    0xFFF < (State.I { busy with I := 0x1000 }).toNat + (0 : Nibble).toNat := by decide
theorem test_meets_StoreThenLoadRestores : ∃ t v, exec (.ldMemVx 3) busy = .next t ∧
    exec (.ldVxMem 3) { t with I := busy.I } = .next v := ⟨_, _, rfl, rfl⟩
theorem test_meets_FlagStorage : (7 : Nibble).toNat ≤ 7 ∧ 7 < (8 : Nibble).toNat := by decide

/-- A block store over the next word, at the top of memory. -/
def selfModifying : State := { regs [(0, 0x12), (1, 0x00)] with I := 0xFFE, pc := 0xFFC }

theorem test_meets_StoredOpcodeIsExecutedNext :
    (selfModifying.withFetchWord 16 0xF155).run = .running ∧
    (selfModifying.withFetchWord 16 0xF155).pc.toNat + 3 ≤ 0xFFF ∧
    decode ((selfModifying.withFetchWord 16 0xF155).mem.readWord 0xFFC) = .ok (.ldMemVx 1) ∧
    (selfModifying.withFetchWord 16 0xF155).I = (selfModifying.withFetchWord 16 0xF155).pc + 2 ∧
    decode ((selfModifying.withFetchWord 16 0xF155).readV 0 ++ (selfModifying.withFetchWord 16 0xF155).readV 1) =
      .ok (.jp 0x200) := ⟨rfl, by decide, rfl, rfl, rfl⟩
theorem test_meets_ClearAndScroll : 63 < State.reset.mode.width ∧ 31 < State.reset.mode.height := by decide
theorem test_meets_SettingTheMode : State.reset.mode = .base ∧ State.reset.mode ≠ .extended := by decide

/-- A big sprite that ends at 0xFFF. -/
def bigAtTop : State := withBytes 0xFE0 [0x80, 0x01] { State.reset with mode := .extended, I := 0xFE0 }

theorem test_meets_DrawFlipsExactlyTheSprite : DrawAllowed bigAtTop 0 ∧
    0x1000 < (State.I { bigAtTop with I := 0xFE1 }).toNat + spriteBytes 0 ∧
    0x1000 < (State.I { State.reset with I := 0xFF2 }).toNat + spriteBytes 0xF ∧
    Touches bigAtTop 0 0 0 15 0 ∧ ¬ Touches { bigAtTop with I := 0x300 } 0 0 1 0 0 ∧
    Touches (withPixel 15 0 bigAtTop) 0 0 0 15 0 ∧ (withPixel 15 0 bigAtTop).pixel 15 0 = true := by
  refine ⟨⟨.inr rfl, by decide⟩, by decide, by decide, ⟨0, 15, by decide⟩, ?_, ⟨0, 15, by decide⟩, by decide⟩
  rintro ⟨r, c, hr, hc, hb, -, -⟩
  have hr0 : r = 0 := by
    have : r < 1 := hr
    omega
  subst hr0
  have hz : ∀ c : Fin 8, spriteBitAt { bigAtTop with I := 0x300 } 1 0 c = false := by decide
  rw [hz ⟨c, hc⟩] at hb
  cases hb
theorem test_meets_DrawTwiceRestores : DrawAllowed bigAtTop 0 ∧ ∃ t, exec (.drw 0 0 0) bigAtTop = .next t ∧
    (tick t).fb = t.fb ∧ (tick t).mode = bigAtTop.mode ∧ (tick t).mem = bigAtTop.mem ∧ (tick t).I = bigAtTop.I ∧
    (tick t).readV 0 = bigAtTop.readV 0 := ⟨⟨.inr rfl, by decide⟩, _, rfl, rfl, rfl, rfl, rfl, by decide⟩
theorem test_meets_KeySkips : ((regs [(0, 0xF)]).readV 0).toNat = (0xF : Nibble).toNat ∧
    0xF < ((regs [(0, 0x10)]).readV 0).toNat := by decide
theorem test_meets_KeyWaitEndsOnALatchedKey : (waiting []).run = .waitingForKey 0xF ∧
    (∀ k : Fin 16, (waiting []).latch[k] = false) ∧ (waiting [2, 9]).run = .waitingForKey 0xF ∧
    (waiting [2, 9]).latch[(9 : Nibble).toNat]'(BitVec.isLt 9) = true := ⟨rfl, by decide, rfl, by decide⟩
theorem test_meets_KeyPressEndsTheWait : (waiting []).run = .waitingForKey 0xF ∧ (waiting []).latch = noKeys ∧
    (waiting []).keys[(0xF : Nibble).toNat]'(BitVec.isLt 15) = false := ⟨rfl, by decide, by decide⟩
theorem test_meets_WaitLastsWithoutAPress : (waiting []).run = .waitingForKey 0xF ∧ (waiting []).latch = noKeys ∧
    ∀ e ∈ [Event.step, .tick, .setKey 3 false], e = .step ∨ e = .tick ∨ ∃ k, e = .setKey k false := by
  refine ⟨rfl, by decide, ?_⟩
  simp
theorem test_meets_SetKeyLatchesAPress : (0 : Nibble) ≠ 0xF := by decide
theorem test_meets_LoadResetsTheMachine : (List.replicate 3584 (0x60 : Byte)).length ≤ 3584 ∧
    3584 < (List.replicate 3585 (0x60 : Byte)).length := by
  rw [List.length_replicate, List.length_replicate]
  decide
theorem test_meets_CreationIsAnEmptyLoad : ∃ t, t = create inPlaceShifts zeroInputs ∧ t.run = .running := ⟨_, rfl, rfl⟩
theorem test_meets_FinalStateIsStable : ((atPc 0xFFE).withFetchWord 16 0x1FFE).isFinal 0xFFE :=
  ⟨rfl, rfl, by decide, by decide⟩

end Sys2Proof.Tests
end

section
/-! SUPPORT. Every transition of every agent keeps the invariant of Safety.lean, and so does every schedule: the decoder
gives well-formed instructions only, every `Effect` keeps the invariant, and a schedule is an induction over its events. -/

namespace Sys2Proof.Machine

/-! ### The decoder gives well-formed instructions only (spec/30_encoding.md R101, R103) -/

theorem decodeGroup0_wf {op : Word} {i : Instr} (h : decodeGroup0 op = .ok i) : i.wf = true := by
  unfold decodeGroup0 at h
  split_ifs at h <;> cases h <;> rfl

theorem decodeXY0_wf {op : Word} {f : Nibble → Nibble → Instr} {i : Instr} (hf : ∀ x y, (f x y).wf = true)
    (h : decodeXY0 op f = .ok i) : i.wf = true := by
  unfold decodeXY0 at h
  split_ifs at h
  cases h
  exact hf _ _

theorem decodeGroup8_wf {op : Word} {i : Instr} (h : decodeGroup8 op = .ok i) : i.wf = true := by
  unfold decodeGroup8 at h
  split at h <;> cases h <;> rfl

theorem decodeGroupE_wf {op : Word} {i : Instr} (h : decodeGroupE op = .ok i) : i.wf = true := by
  unfold decodeGroupE at h
  split at h <;> cases h <;> rfl

theorem decodeGroupF_wf {op : Word} {i : Instr} (h : decodeGroupF op = .ok i) : i.wf = true := by
  unfold decodeGroupF at h
  split at h <;> cases h <;> rfl

/-- The cases are the first hex digits: the groups, the four ADDR formats, whose address is the word's NNN, and the
formats with no address. -/
theorem decode_wf {op : Word} {i : Instr} (h : decode op = .ok i) : i.wf = true := by
  have hnnn : decide (addressFits (opNNN op)) = true := decide_eq_true (addressFits_opNNN op)
  unfold decode at h
  split at h
  case h_1 => exact decodeGroup0_wf h
  case h_6 | h_10 => exact decodeXY0_wf (fun _ _ => rfl) h
  case h_9 => exact decodeGroup8_wf h
  case h_15 => exact decodeGroupE_wf h
  case h_16 => exact decodeGroupF_wf h
  case h_2 | h_3 | h_11 | h_12 => cases h; exact hnnn
  case h_17 => cases h
  all_goals
    cases h
    rfl

/-! ### What keeps the invariant -/

/-- The invariant speaks of memory, display, stack, pc and run state alone: a state that differs in other fields meets
it, as long as the run state agrees with the pc. -/
theorem State.Inv.of_fields {s t : State} (hs : s.Inv) (hmem : t.mem = s.mem) (hmode : t.mode = s.mode)
    (hfb : t.fb = s.fb) (hsp : t.sp = s.sp) (hstack : t.stack = s.stack) (hpc : t.pc = s.pc) (hrun : runWf t) :
    t.Inv where
  mem := hmem ▸ hs.mem
  grid := by rw [hmode, hfb]; exact hs.grid
  stack := by simpa only [stackWf, hsp, hstack] using hs.stack
  pc := hpc ▸ hs.pc
  run := hrun

/-- An error keeps the pc of its instruction (spec/60_exceptions.md R302). -/
theorem raise_inv {s t : State} {e : ErrorKind} (hs : s.Inv) (h : raise e s = .next t) : t.Inv := by
  cases h
  exact hs.of_fields rfl rfl rfl rfl rfl rfl rfl

/-- A wait that ends began at an opcode that was fetched, so the pc may advance (spec/45_keypad_timers.md R283). -/
theorem completeWait_inv {s t : State} {x : Nibble} (hs : s.Inv) (hr : s.run = .waitingForKey x)
    (h : completeWait x s = .next t) : t.Inv := by
  have hpc : s.pc.toNat + 2 ≤ memSize := by simpa only [runWf, hr] using hs.run
  have hrunning : State.Inv { s with run := .running } := hs.of_fields rfl rfl rfl rfl rfl rfl trivial
  rcases completeWait_next h with rfl | ⟨k, -, rfl⟩
  · exact hs
  · exact hrunning.advance hpc rfl hs.mem hs.grid rfl rfl rfl rfl

/-- A pushed return address is that of the opcode after a fetched one (spec/41_control_flow.md R152). -/
theorem State.Inv.push_jump {s : State} (hs : s.Inv) (hp : s.pc.toNat + 2 ≤ memSize) (hr : s.run = .running) {a : Word}
    (ha : a ≤ maxPc) (h : s.sp.toNat < stackDepth) :
    State.Inv { s with stack := s.stack.set s.sp.toNat (s.pc + 2) h, sp := s.sp + 1, pc := a } where
  mem := hs.mem
  grid := hs.grid
  stack := by
    have hsp : (s.sp + 1).toNat = s.sp.toNat + 1 := by
      have : s.sp.toNat < 16 := h
      bv_omega
    refine ⟨by rw [hsp]; exact h, fun k hk => ?_⟩
    by_cases e : s.sp.toNat = k.val
    · simpa [e] using (pc_bounds hp).2.1
    · have hlive : k.val < s.sp.toNat := by
        simp only [hsp] at hk
        omega
      simpa [e] using hs.stack.2 k hlive
  pc := ha
  run := by simp [runWf, hr]

/-- A popped return address is within R37, and the entries below it stay live (spec/41_control_flow.md R150). -/
theorem State.Inv.pop_jump {s : State} (hs : s.Inv) (hr : s.run = .running) (h0 : s.sp ≠ 0)
    (h : s.sp.toNat - 1 < stackDepth) :
    State.Inv { s with sp := s.sp - 1, pc := s.stack[s.sp.toNat - 1] } := by
  obtain ⟨hdepth, hentries⟩ := hs.stack
  have hpos : 0 < s.sp.toNat := by bv_omega
  have hsp : (s.sp - 1).toNat = s.sp.toNat - 1 := by bv_omega
  refine ⟨hs.mem, hs.grid, ⟨?_, fun k hk => ?_⟩, ?_, by simp [runWf, hr]⟩
  · rw [hsp]
    omega
  · simp only [hsp] at hk
    exact hentries k (by omega)
  · have hlive : s.stack[s.sp.toNat - 1] ≤ 0x1000#16 := hentries ⟨_, h⟩ (Nat.sub_lt hpos Nat.one_pos)
    exact BitVec.le_trans hlive (by decide)

/-- A mode change gives the new grid its form, and the pc advances (spec/44_display.md R242). -/
theorem State.Inv.setMode_advance {s : State} (hs : s.Inv) (hp : s.pc.toNat + 2 ≤ memSize) (hr : s.run = .running)
    (m : Mode) : (setMode m s).advance.Inv := by
  obtain ⟨hgrid, hmem, hsp, hstack, hpc, hrun⟩ := setMode_keeps (m := m) hs.grid
  exact hs.advance hp hr (hmem ▸ hs.mem) hgrid hsp hstack hpc hrun

/-- A draw stays within the active grid (spec/44_display.md R243). -/
theorem gridWf_drawAndFlag {w : Nat} {s : State} (x y : Nat) (rows : List (BitVec w)) (hw : w ≤ 16)
    (hrows : rows.length ≤ 16) (h : gridWf s.mode s.fb) :
    gridWf (drawAndFlag s x y rows).mode (drawAndFlag s x y rows).fb :=
  gridWf_drawSprite x y rows (hw.trans s.mode.sprite_width_le) (hrows.trans s.mode.sprite_height_le) h

/-- Every instruction's effect keeps the invariant: display and memory writers keep the form of what they write, control
transfers keep pc and stack in their ranges, and every other instruction advances the pc and touches nothing else that
the invariant speaks of. -/
theorem Effect.inv {s t : State} {i : Instr} (hs : s.Inv) (hr : s.run = .running) (hp : s.pc.toNat + 2 ≤ memSize)
    (hwf : i.wf = true) (h : Effect s t i) : t.Inv := by
  cases i with
  | cls => subst h; exact hs.advance hp hr hs.mem (gridWf_blankGrid _) rfl rfl rfl rfl
  | scd n => subst h; exact hs.advance hp hr hs.mem (gridWf_scrollGrid _ hs.grid) rfl rfl rfl rfl
  | low => subst h; exact hs.setMode_advance hp hr .base
  | high => subst h; exact hs.setMode_advance hp hr .extended
  | drw x y n =>
    rcases h with ⟨-, -, -, rfl⟩ | ⟨-, -, rfl⟩
    · exact hs.advance hp hr hs.mem (gridWf_drawAndFlag _ _ _ (by decide) (by simp) hs.grid) rfl rfl rfl rfl
    · have hn : n.toNat ≤ 16 := Nat.le_of_lt n.isLt
      exact hs.advance hp hr hs.mem (gridWf_drawAndFlag _ _ _ (by decide) (by simpa using hn) hs.grid) rfl rfl rfl rfl
  | jp nnn => subst h; exact hs.jump hr (addressFits_le_maxPc (of_decide_eq_true hwf))
  | jpV0 nnn => subst h; exact hs.jump hr (jumpTargetV0_le_maxPc (of_decide_eq_true hwf))
  | call nnn =>
    obtain ⟨hroom, rfl⟩ := h
    exact hs.push_jump hp hr (addressFits_le_maxPc (of_decide_eq_true hwf)) hroom
  | ret =>
    obtain ⟨h0, hlive, rfl⟩ := h
    exact hs.pop_jump hr h0 hlive
  | seImm x nn | sneImm x nn | seReg x y | sneReg x y => subst h; exact hs.skipIf hp hr _
  | skp x | sknp x => obtain ⟨k, -, rfl⟩ := h; exact hs.skipIf hp hr _
  | ldVxK x => subst h; exact hs.of_fields rfl rfl rfl rfl rfl rfl hp
  | ldBVx x | ldMemVx x =>
    obtain ⟨hfit, rfl⟩ := h
    exact hs.advance hp hr (Memory.wf_writeBytes (by simpa using hfit) hs.mem) hs.grid rfl rfl rfl rfl
  | addReg x y | sub x y | shr x y | subn x y | shl x y =>
    obtain ⟨r, f, rfl⟩ := h
    exact hs.advance hp hr hs.mem hs.grid rfl rfl rfl rfl
  | ldFVx x =>
    obtain ⟨d, -, rfl⟩ := h
    exact hs.advance hp hr hs.mem hs.grid rfl rfl rfl rfl
  | ldVxMem x | ldRVx x | ldVxR x =>
    obtain ⟨-, rfl⟩ := h
    exact hs.advance hp hr hs.mem hs.grid rfl rfl rfl rfl
  | _ => subst h; exact hs.advance hp hr hs.mem hs.grid rfl rfl rfl rfl

/-! ### The transitions of the agents -/

theorem step_inv {s t : State} (hs : s.Inv) (h : step s = .next t) : t.Inv := by
  rcases step_next h with ⟨-, rfl⟩ | ⟨x, hr, hwait⟩ | ⟨k, -, hraise⟩ | ⟨i, hr, hp, hd, heff⟩
  · exact hs
  · exact completeWait_inv hs hr hwait
  · exact raise_inv hs hraise
  · exact heff.inv hs hr hp (decode_wf hd)

theorem tick_inv {s : State} (hs : s.Inv) : (tick s).Inv :=
  hs.of_fields rfl rfl rfl rfl rfl rfl hs.run

theorem setKey_inv {s : State} (hs : s.Inv) (k : Nibble) (p : Bool) : (setKey k p s).Inv :=
  hs.of_fields rfl rfl rfl rfl rfl rfl hs.run

theorem transition_inv {s t : State} {e : Event} (hs : s.Inv) (he : e.wf) (h : transition e s = .next t) :
    t.Inv := by
  cases e with
  | step => exact step_inv hs h
  | tick => cases h; exact tick_inv hs
  | setKey k p => cases h; exact setKey_inv hs k p
  | load bytes inputs => cases h; exact load_inv bytes inputs s he

/-- Each event of a schedule hands on a state that meets the invariant. -/
theorem runSchedule_inv {events : List Event} {s t : State} (hs : s.Inv) (hwf : ∀ e ∈ events, e.wf)
    (h : runSchedule events s = .next t) : t.Inv := by
  induction events generalizing s with
  | nil =>
    cases h
    exact hs
  | cons e es ih =>
    obtain ⟨he, hes⟩ := List.forall_mem_cons.1 hwf
    obtain ⟨u, hu, ht⟩ := andThen_eq_next h
    exact ih (transition_inv hs he hu) hes ht

/-- Settles O15, by induction on the list of events (`runSchedule_inv`): every transition keeps the invariant. -/
theorem everyScheduleKeepsTheInvariant : Obligations.EveryScheduleKeepsTheInvariant := by
  unfold Obligations.EveryScheduleKeepsTheInvariant
  intro events s t hs hwf h
  exact runSchedule_inv hs hwf h

end Sys2Proof.Machine
end

section
/-! SUPPORT. Who writes what (spec/10_state.md sections 2 to 7): the fields of the state each instruction may write, said
once (`exec_frame`, `step_frame`), and the statements about the writers of a field; that every step keeps the invariant,
and that no state that meets it steps to a fault. -/

namespace Sys2Proof.Machine

/-- Settles O14: the step of every run state keeps the invariant (`step_inv`). -/
theorem stepKeepsTheInvariant : Obligations.StepKeepsTheInvariant := by
  unfold Obligations.StepKeepsTheInvariant
  intro s t hs h
  exact step_inv hs h

/-! ### The one fault of the model (log 10) -/

/-- A bounds check adds no fault to what it guards. -/
theorem accessThen_ne_fault {s : State} {a n : Nat} {k : StepResult} {f : Fault} (hk : k ≠ .fault f) :
    accessThen s a n k ≠ .fault f := by
  unfold accessThen
  split
  · exact hk
  · exact nofun

/-- A pop faults only at a depth the spec does not have (spec/10_state.md R38). -/
theorem popThen_fault {s : State} {k : Word → State → StepResult} {f : Fault} (hk : ∀ a u, k a u ≠ .fault f)
    (h : popThen s k = .fault f) : stackDepth < s.sp.toNat := by
  by_contra hdepth
  have hpos : 0 < stackDepth := by decide
  by_cases h0 : s.sp = 0
  · rw [popThen_empty k h0] at h
    cases h
  · rw [popThen_live k h0 (by omega)] at h
    exact hk _ _ h

/-- A push adds no fault to what it guards. -/
theorem pushThen_ne_fault {s : State} {a : Word} {k : State → StepResult} {f : Fault} (hk : ∀ u, k u ≠ .fault f) :
    pushThen s a k ≠ .fault f := by
  unfold pushThen
  split
  · exact hk _
  · exact nofun

/-- Of all instructions RET alone faults, and only at a depth above 16. -/
theorem exec_fault {i : Instr} {s : State} {f : Fault} (h : exec i s = .fault f) :
    i = .ret ∧ stackDepth < s.sp.toNat := by
  cases i with
  | ret =>
    simp only [exec, execRet] at h
    exact ⟨rfl, popThen_fault (fun _ _ e => by cases e) h⟩
  | call nnn =>
    simp only [exec, execCall] at h
    exact absurd h (pushThen_ne_fault fun _ e => by cases e)
  | ldBVx x | ldMemVx x | ldVxMem x => exact absurd h (accessThen_ne_fault nofun)
  | drw x y n =>
    simp only [exec, execDrw] at h
    split at h
    · split at h
      · exact absurd h (accessThen_ne_fault nofun)
      · cases h
    · exact absurd h (accessThen_ne_fault nofun)
  | skp x | sknp x | ldFVx x | ldRVx x | ldVxR x =>
    simp only [exec, execSkp, execSknp, execLdFVx, execLdRVx, execLdVxR] at h
    split at h <;> cases h
  | _ => cases h

/-- A step faults only at a stack depth above 16. -/
theorem step_fault {s : State} {f : Fault} (h : step s = .fault f) : stackDepth < s.sp.toNat := by
  rcases step_cases s with ⟨e, -, hs⟩ | ⟨x, -, hs⟩ | ⟨-, -, hs⟩ | ⟨-, -, hs⟩ | ⟨i, -, -, -, hs⟩ <;> rw [hs] at h
  · cases h
  · obtain ⟨t, ht⟩ := completeWait_total x s
    rw [ht] at h
    cases h
  · cases h
  · cases h
  · exact (exec_fault h).2

/-- Settles O16: a fault needs a depth above 16 (`step_fault`), and the invariant bounds the depth. -/
theorem invariantStatesNeverFault : Obligations.InvariantStatesNeverFault := by
  unfold Obligations.InvariantStatesNeverFault
  intro s f hs h
  obtain ⟨hdepth, -⟩ := hs.stack
  exact absurd (step_fault h) (Nat.not_lt.2 hdepth)

/-! ### The frame of an instruction -/

/-- `s` with the fields that every instruction may write taken from `t`: the pc, the run state and the counter of draws. -/
def State.movedTo (s t : State) : State := { s with pc := t.pc, run := t.run, draws := t.draws }

/-- `s` with the fields that the instruction may write taken from `t`. -/
def frameOf (s t : State) : Instr → State
  | .jp _ | .jpV0 _ | .seImm _ _ | .sneImm _ _ | .seReg _ _ | .sneReg _ _ | .skp _ | .sknp _ => s.movedTo t
  | .call _ => { s.movedTo t with sp := t.sp, stack := t.stack }
  | .ret => { s.movedTo t with sp := t.sp }
  | .cls | .scd _ => { s.movedTo t with fb := t.fb }
  | .drw _ _ _ => { s.movedTo t with fb := t.fb, V := t.V }
  | .low | .high => { s.movedTo t with fb := t.fb, mode := t.mode }
  | .ldImm _ _ | .addImm _ _ | .ldReg _ _ | .or _ _ | .and _ _ | .xor _ _ | .addReg _ _ | .sub _ _ | .shr _ _
  | .subn _ _ | .shl _ _ | .rnd _ _ | .ldVxDt _ | .ldVxR _ => { s.movedTo t with V := t.V }
  | .ldI _ | .addIVx _ | .ldFVx _ => { s.movedTo t with I := t.I }
  | .ldBVx _ => { s.movedTo t with mem := t.mem }
  | .ldMemVx _ => { s.movedTo t with mem := t.mem, I := t.I }
  | .ldVxMem _ => { s.movedTo t with V := t.V, I := t.I }
  | .ldVxK _ => { s.movedTo t with latch := t.latch }
  | .ldDtVx _ => { s.movedTo t with DT := t.DT }
  | .ldStVx _ => { s.movedTo t with ST := t.ST }
  | .ldRVx _ => { s.movedTo t with rpl := t.rpl }

theorem setMode_frame (m : Mode) (s : State) :
    setMode m s = { s.movedTo (setMode m s) with fb := (setMode m s).fb, mode := (setMode m s).mode } := by
  by_cases e : m = s.mode
  · subst e
    rw [setMode_same]
    rfl
  · rw [setMode_other e]
    rfl

theorem Effect.frame {s t : State} {i : Instr} (h : Effect s t i) : t = frameOf s t i := by
  cases i with
  | low => subst h; exact congrArg State.advance (setMode_frame .base s)
  | high => subst h; exact congrArg State.advance (setMode_frame .extended s)
  | drw x y n => rcases h with ⟨-, -, -, rfl⟩ | ⟨-, -, rfl⟩ <;> rfl
  | call nnn => obtain ⟨-, rfl⟩ := h; rfl
  | ret => obtain ⟨-, -, rfl⟩ := h; rfl
  | addReg x y | sub x y | shr x y | subn x y | shl x y => obtain ⟨r, f, rfl⟩ := h; rfl
  | skp x | sknp x | ldFVx x => obtain ⟨-, -, rfl⟩ := h; rfl
  | ldBVx x | ldMemVx x | ldRVx x => obtain ⟨-, rfl⟩ := h; rfl
  | ldVxMem x =>
    obtain ⟨-, rfl⟩ := h
    generalize loadedBlock s x s.I.toNat = V
    rfl
  | ldVxR x =>
    obtain ⟨-, rfl⟩ := h
    generalize restoredBlock s x = V
    rfl
  | _ => subst h; rfl

theorem raise_frame {s t : State} {k : ErrorKind} (h : raise k s = .next t) : t = s.movedTo t := by
  cases h
  rfl

/-- An instruction that answers a next state writes its own fields alone, an error's `run` among them. -/
theorem exec_frame {i : Instr} {s t : State} (h : exec i s = .next t) : t = frameOf s t i := by
  rcases exec_next h with ⟨k, hk⟩ | he
  · cases hk
    cases i <;> rfl
  · exact he.frame

/-- A wait's step writes a register and the latch, and moves on. -/
theorem completeWait_frame {x : Nibble} {s t : State} (h : completeWait x s = .next t) :
    t = { s.movedTo t with V := t.V, latch := t.latch } := by
  rcases completeWait_next h with rfl | ⟨k, -, rfl⟩ <;> rfl

/-- A step writes what a wait's step may, or what the instruction at pc may. -/
theorem step_frame {s t : State} (h : step s = .next t) :
    t = { s.movedTo t with V := t.V, latch := t.latch } ∨
    ∃ i, decode (s.mem.readWord s.pc.toNat) = .ok i ∧ t = frameOf s t i := by
  rcases step_next h with ⟨-, rfl⟩ | ⟨x, -, hwait⟩ | ⟨k, -, hraise⟩ | ⟨i, -, -, hd, heff⟩
  · exact .inl rfl
  · exact .inl (completeWait_frame hwait)
  · cases hraise
    exact .inl rfl
  · exact .inr ⟨i, hd, heff.frame⟩

/-! ### The writers of each field -/

theorem frameOf_keys (s t : State) (i : Instr) : (frameOf s t i).keys = s.keys := by
  cases i <;> rfl

/-- Settles O18: the key levels are in the frame of no step (`step_frame`), no tick and no load. -/
theorem onlyTheHostSetsKeys : Obligations.OnlyTheHostSetsKeys := by
  unfold Obligations.OnlyTheHostSetsKeys
  intro e s t hne h
  cases e with
  | step =>
    rcases step_frame h with ht | ⟨i, -, ht⟩
    · exact (congrArg State.keys ht :)
    · exact (congrArg State.keys ht).trans (frameOf_keys s t i)
  | tick => cases h; rfl
  | setKey k p => exact absurd rfl (hne k p)
  | load bytes inputs => cases h; rfl

/-- Settles O20: by the frames, SP is written by CALL and RET, the entries by CALL. -/
theorem stackWriters : Obligations.StackWriters := by
  unfold Obligations.StackWriters
  intro i s t h
  have ht := exec_frame h
  refine ⟨fun hsp => ?_, fun hstack => ?_⟩
  · cases i with
    | ret => exact .inl rfl
    | call a => exact .inr ⟨a, rfl⟩
    | _ => exact absurd (congrArg State.sp ht) hsp
  · cases i with
    | call a => exact ⟨a, rfl⟩
    | _ => exact absurd (congrArg State.stack ht) hstack

/-- Settles O21: by the frames, the display instructions alone write the framebuffer, and 00FE and 00FF alone the mode. -/
theorem displayWriters : Obligations.DisplayWriters := by
  unfold Obligations.DisplayWriters
  intro i s t h
  have ht := exec_frame h
  refine ⟨fun hfb => ?_, fun hmode => ?_⟩
  · cases i with
    | cls => exact .inl rfl
    | low => exact .inr (.inl rfl)
    | high => exact .inr (.inr (.inl rfl))
    | scd n => exact .inr (.inr (.inr (.inl ⟨n, rfl⟩)))
    | drw x y n => exact .inr (.inr (.inr (.inr ⟨x, y, n, rfl⟩)))
    | _ => exact absurd (congrArg State.fb ht) hfb
  · cases i with
    | low => exact .inl rfl
    | high => exact .inr rfl
    | _ => exact absurd (congrArg State.mode ht) hmode

/-- Settles O22: by the frames of a step, in the wait and in Halted none of the three is written, and in Running each by
one instruction. -/
theorem timerAndFlagStorageWriters : Obligations.TimerAndFlagStorageWriters := by
  unfold Obligations.TimerAndFlagStorageWriters
  intro s t h
  rcases step_frame h with ht | ⟨i, hd, ht⟩
  · exact ⟨fun hDT => absurd (congrArg State.DT ht) hDT, fun hST => absurd (congrArg State.ST ht) hST,
      fun hrpl => absurd (congrArg State.rpl ht) hrpl⟩
  · refine ⟨fun hDT => ?_, fun hST => ?_, fun hrpl => ?_⟩
    · cases i with
      | ldDtVx x => exact ⟨x, hd⟩
      | _ => exact absurd (congrArg State.DT ht) hDT
    · cases i with
      | ldStVx x => exact ⟨x, hd⟩
      | _ => exact absurd (congrArg State.ST ht) hST
    · cases i with
      | ldRVx x => exact ⟨x, hd⟩
      | _ => exact absurd (congrArg State.rpl ht) hrpl

/-! ### The index register -/

/-- A block transfer leaves I as it was unless the option is set (spec/43_index_memory.md R214). -/
theorem indexAfterBlock_of_not {s : State} (x : Nibble) (h : s.cfg.loadStoreIncrementsI ≠ true) :
    indexAfterBlock s x = s.I := if_neg h

/-- A block transfer that changes I does so by the option. -/
theorem option_of_block_index {s t : State} {x : Nibble} (h : Effect s t (.ldMemVx x) ∨ Effect s t (.ldVxMem x))
    (hI : t.I ≠ s.I) : s.cfg.loadStoreIncrementsI = true := by
  by_contra hopt
  rcases h with ⟨-, rfl⟩ | ⟨-, rfl⟩ <;> exact hI (indexAfterBlock_of_not x hopt)

/-- Settles O23: by the frames five instructions write I, and the two block transfers only by the option. -/
theorem indexWriters : Obligations.IndexWriters := by
  unfold Obligations.IndexWriters
  intro i s t h hI
  rcases exec_next h with ⟨k, hk⟩ | heff
  · exact absurd (congrArg State.I (raise_frame hk)) hI
  · cases i with
    | ldI a => exact .inl ⟨a, rfl⟩
    | addIVx x => exact .inr (.inl ⟨x, .inl rfl⟩)
    | ldFVx x => exact .inr (.inl ⟨x, .inr rfl⟩)
    | ldMemVx x => exact .inr (.inr ⟨option_of_block_index (.inl heff) hI, x, .inl rfl⟩)
    | ldVxMem x => exact .inr (.inr ⟨option_of_block_index (.inr heff) hI, x, .inr rfl⟩)
    | _ => exact absurd (congrArg State.I heff.frame) hI

/-! ### VF -/

/-- The writers of VF: the instructions whose flag it is, and those with VF as an ordinary destination
(spec/10_state.md R32). -/
def WritesVF (i : Instr) : Prop :=
  (∃ x y, i = .addReg x y ∨ i = .sub x y ∨ i = .shr x y ∨ i = .subn x y ∨ i = .shl x y) ∨
  (∃ x y n, i = .drw x y n) ∨
  (∃ nn, i = .ldImm 0xF nn ∨ i = .addImm 0xF nn ∨ i = .rnd 0xF nn) ∨
  (∃ y, i = .ldReg 0xF y ∨ i = .or 0xF y ∨ i = .and 0xF y ∨ i = .xor 0xF y) ∨
  i = .ldVxDt 0xF ∨ i = .ldVxMem 0xF

/-- A write that changes a register is a write to it. -/
theorem State.eq_of_readV_writeV_ne {s t : State} {x z : Nibble} {b : Byte} (ht : t.V = (s.writeV x b).V)
    (hne : t.readV z ≠ s.readV z) : x = z := by
  by_contra hx
  exact hne ((State.readV_congr ht z).trans (State.readV_writeV_ne s b (Ne.symm hx)))

/-- A block load reaches VF only with X = F (spec/43_index_memory.md R217). -/
theorem loadedBlock_vF {s : State} {x : Nibble} (a : Nat) (hx : x ≠ 0xF) : (loadedBlock s x a)[15] = s.readV 0xF := by
  have hlt : ¬ (0xF#4).toNat ≤ x.toNat := by
    have := x.isLt
    bv_omega
  exact (loadedBlock_getElem s x 0xF a).trans (if_neg hlt)

/-- The flag storage has no slot for VF (spec/43_index_memory.md R219). -/
theorem restoredBlock_vF (s : State) (x : Nibble) : (restoredBlock s x)[15] = s.readV 0xF :=
  restoredBlock_getElem s x 0xF

theorem Effect.writesVF {s t : State} {i : Instr} (h : Effect s t i) (hne : t.readV 0xF ≠ s.readV 0xF) :
    WritesVF i := by
  cases i with
  | addReg x y | sub x y | shr x y | subn x y | shl x y | drw x y n => simp [WritesVF]
  | ldImm x nn | addImm x nn | rnd x nn | ldReg x y | or x y | and x y | xor x y | ldVxDt x =>
    obtain rfl : x = 0xF := State.eq_of_readV_writeV_ne (congrArg State.V h :) hne
    simp [WritesVF]
  | ldVxMem x =>
    obtain ⟨-, rfl⟩ := h
    obtain rfl : x = 0xF := by_contra fun hx => hne (loadedBlock_vF _ hx)
    simp [WritesVF]
  | ldVxR x =>
    obtain ⟨-, rfl⟩ := h
    exact absurd (restoredBlock_vF s x) hne
  | _ => exact absurd (State.readV_congr (congrArg State.V h.frame) 0xF) hne

/-- Settles O24: a wait's step writes the register of its FX0A, and in Running VF is written by the instructions of
`WritesVF` alone (`Effect.writesVF`). -/
theorem vfWriters : Obligations.VFWriters := by
  unfold Obligations.VFWriters
  intro s t h hne
  rcases step_next h with ⟨-, rfl⟩ | ⟨x, hr, hwait⟩ | ⟨k, -, hraise⟩ | ⟨i, hr, -, hd, heff⟩
  · exact absurd rfl hne
  · rcases completeWait_next hwait with rfl | ⟨k, -, ht⟩
    · exact absurd rfl hne
    · obtain rfl : x = 0xF := State.eq_of_readV_writeV_ne (congrArg State.V ht :) hne
      exact .inl hr
  · exact absurd (State.readV_congr (congrArg State.V (raise_frame hraise)) 0xF) hne
  · exact .inr ⟨i, hr, hd, heff.writesVF hne⟩

end Sys2Proof.Machine
end

section
/-! SUPPORT. The flat memory as instructions see it (spec/20_memory.md): the word a step fetches and runs, the bytes a
store may change, and a store over the next opcode. -/

namespace Sys2Proof.Machine

/-! ### The word at pc (spec/20_memory.md R75) -/

/-- A word whose bytes stand at an address, the high byte first, is the word read there. -/
theorem Memory.readWord_of_bytes {m : Memory} {a : Nat} {op : Word} (hhi : op.extractLsb' 8 8 = m.read a)
    (hlo : op.extractLsb' 0 8 = m.read (a + 1)) : m.readWord a = op := by
  unfold Memory.readWord
  rw [← hhi, ← hlo]
  exact wordOfBytes_bytesOfWord op

/-- In Running, a word inside memory that decodes is executed, with nothing added around it. -/
theorem step_of_decode {s : State} {i : Instr} (hr : s.run = .running) (hpc : s.pc.toNat + 2 ≤ memSize)
    (hd : decode (s.mem.readWord s.pc.toNat) = .ok i) : step s = exec i s := by
  rw [step_of_fetch hr hpc, hd]

/-- Settles O6: the two bytes are the word that is fetched (`Memory.readWord_of_bytes`), and a word that decodes is
executed (`step_of_decode`). -/
theorem stepRunsTheDecodedInstruction : Obligations.StepRunsTheDecodedInstruction := by
  unfold Obligations.StepRunsTheDecodedInstruction
  intro s op i hr hpc hhi hlo hd
  have hfit : s.pc.toNat + 2 ≤ 0x1000 := by bv_omega
  exact step_of_decode hr hfit ((Memory.readWord_of_bytes hhi hlo).symm ▸ hd)

/-! ### The bytes a store may change (spec/20_memory.md R72) -/

/-- A byte that a write changes is one of those written. -/
theorem Memory.written_of_read_ne {m : Memory} {a b : Nat} {vs : List Byte}
    (h : (m.writeBytes a vs).read b ≠ m.read b) : a ≤ b ∧ b < a + vs.length := by
  by_contra hout
  exact h (m.read_writeBytes_outside vs (by omega))

/-- Settles O19: memory is in the frame of every instruction but FX33 and FX55 (`Effect.frame`) and of every error
(`raise_frame`), and those two change only the bytes they write (`Memory.written_of_read_ne`). -/
theorem memoryWriters : Obligations.MemoryWriters := by
  unfold Obligations.MemoryWriters
  intro i s t a h hne
  rcases exec_next h with ⟨k, hk⟩ | heff
  · exact absurd (congrArg (fun u => u.mem.read a) (raise_frame hk)) hne
  · cases i with
    | ldBVx x =>
      obtain ⟨-, rfl⟩ := heff
      exact .inl ⟨x, rfl, Memory.written_of_read_ne hne⟩
    | ldMemVx x =>
      obtain ⟨-, rfl⟩ := heff
      obtain ⟨hlow, hhigh⟩ := Memory.written_of_read_ne hne
      rw [length_registerBlock] at hhigh
      exact .inr ⟨x, rfl, hlow, Nat.le_of_lt_succ hhigh⟩
    | _ => exact absurd (congrArg (fun u => u.mem.read a) heff.frame) hne

/-! ### A block store over the next opcode (spec/20_memory.md R91) -/

/-- A block store inside memory completes (spec/43_index_memory.md R216). -/
theorem exec_ldMemVx_fits {s : State} {x : Nibble} (h : s.I.toNat + (x.toNat + 1) ≤ memSize) :
    exec (.ldMemVx x) s = .next (State.advance { s with
      mem := s.mem.writeBytes s.I.toNat (registerBlock s x), I := indexAfterBlock s x }) :=
  accessThen_fits _ h

/-- The first word of a stored block is V0 V1. -/
theorem Memory.readWord_writeBytes_registerBlock (m : Memory) (a : Nat) (s : State) {x : Nibble} (hx : 1 ≤ x.toNat) :
    (m.writeBytes a (registerBlock s x)).readWord a = s.readV 0 ++ s.readV 1 := by
  have htwo : 1 < (registerBlock s x).length := by
    rw [length_registerBlock]
    exact Nat.lt_succ_of_le hx
  have h0 := m.read_writeBytes_inside a 0 (registerBlock s x) (Nat.zero_lt_of_lt htwo)
  have h1 := m.read_writeBytes_inside a 1 (registerBlock s x) htwo
  rw [getElem_registerBlock] at h0 h1
  exact congrArg₂ wordOfBytes h0 h1

/-- Settles O44: the store completes and leaves V0 V1 at I, which is the pc of the next step. -/
theorem storedOpcodeIsExecutedNext : Obligations.StoredOpcodeIsExecutedNext := by
  unfold Obligations.StoredOpcodeIsExecutedNext
  intro s x i hr hpc hstore hx hI hfit hd
  have hfetch : s.pc.toNat + 2 ≤ 0x1000 := by omega
  have hstored : s.I.toNat + (x.toNat + 1) ≤ 0x1000 := by omega
  have hnext : (s.pc + 2).toNat + 2 ≤ 0x1000 := by bv_omega
  have hword : (s.mem.writeBytes s.I.toNat (registerBlock s x)).readWord (s.pc + 2).toNat = s.readV 0 ++ s.readV 1 := by
    rw [← hI]
    exact Memory.readWord_writeBytes_registerBlock _ _ s hx
  exact ⟨_, (step_of_decode hr hfetch hstore).trans (exec_ldMemVx_fits hstored), State.advance_pc _,
    step_of_decode hr hnext ((congrArg decode hword).trans hd)⟩

end Sys2Proof.Machine
end

section
/-! SUPPORT. The decoder, the encoder and the opcode table agree (spec/30_encoding.md): decoding undoes encoding and
encoding undoes decoding, each word that decodes is in the row of its instruction alone, and the rejected words are those
that R110 lists. -/

namespace Sys2Proof.Machine

/-! ### Decoding undoes encoding (R100 to R109) -/

/-- Each format's fields are read back, and the minor opcode selects the instruction in its group. -/
theorem decode_encode {i : Instr} (h : i.wf = true) : decode (encode i) = .ok i := by
  cases i with
  | cls | ret | low | high => rfl
  | scd n => revert n; decide
  | jp a | call a | ldI a | jpV0 a =>
    have ha : addressFits a := of_decide_eq_true h
    simp [encode, decode, ha]
  | seImm x nn | sneImm x nn | ldImm x nn | addImm x nn | rnd x nn | drw x y n => simp [encode, decode]
  | seReg x y | sneReg x y => simp [encode, decode, decodeXY0]
  | ldReg x y | or x y | and x y | xor x y | addReg x y | sub x y | shr x y | subn x y | shl x y =>
    simp [encode, decode, decodeGroup8]
  | skp x | sknp x => simp [encode, decode, decodeGroupE]
  | ldVxDt x | ldVxK x | ldDtVx x | ldStVx x | addIVx x | ldFVx x | ldBVx x | ldMemVx x | ldVxMem x | ldRVx x
  | ldVxR x => simp [encode, decode, decodeGroupF]

/-- Settles O1: `decode_encode`, by the formats. -/
theorem encodeThenDecode : Obligations.EncodeThenDecode := by
  unfold Obligations.EncodeThenDecode
  exact fun _ => decode_encode

/-! ### Encoding undoes decoding (R101, R103)

The decoder compares fields as numbers, so the lemmas put a word together from the numbers it matched. -/

theorem encodeAddr_of_opMajor {op : Word} {a : Nat} (ha : (opMajor op).toNat = a) :
    encodeAddr (BitVec.ofNat 4 a) (opNNN op) = op := by
  subst ha
  simp [word_eq_encodeAddr]

theorem encodeXNN_of_opMajor {op : Word} {a : Nat} (ha : (opMajor op).toNat = a) :
    encodeXNN (BitVec.ofNat 4 a) (opX op) (opNN op) = op := by
  subst ha
  simp [word_eq_encodeXNN]

theorem encodeXNN_of_opMajor_opNN {op : Word} {a nn : Nat} (ha : (opMajor op).toNat = a)
    (hnn : (opNN op).toNat = nn) : encodeXNN (BitVec.ofNat 4 a) (opX op) (BitVec.ofNat 8 nn) = op := by
  subst hnn
  simp [encodeXNN_of_opMajor ha]

theorem encodeXYN_of_opMajor {op : Word} {a : Nat} (ha : (opMajor op).toNat = a) :
    encodeXYN (BitVec.ofNat 4 a) (opX op) (opY op) (opN op) = op := by
  subst ha
  simp [word_eq_encodeXYN]

theorem encodeXYN_of_opMajor_opN {op : Word} {a n : Nat} (ha : (opMajor op).toNat = a) (hn : (opN op).toNat = n) :
    encodeXYN (BitVec.ofNat 4 a) (opX op) (opY op) (BitVec.ofNat 4 n) = op := by
  subst hn
  simp [encodeXYN_of_opMajor ha]

theorem encode_of_decodeGroup0 {op : Word} {i : Instr} (h : decodeGroup0 op = .ok i) : encode i = op := by
  unfold decodeGroup0 at h
  split_ifs at h with hscd hcls hret hlow hhigh <;> cases h
  · rw [encode, ← hscd, word_eq_append_opN]
  · exact hcls.symm
  · exact hret.symm
  · exact hlow.symm
  · exact hhigh.symm

theorem encode_of_decodeXY0 {op : Word} {a : Nat} {f : Nibble → Nibble → Instr} {i : Instr}
    (ha : (opMajor op).toNat = a) (hf : ∀ x y, encode (f x y) = encodeXYN (BitVec.ofNat 4 a) x y 0x0#4)
    (h : decodeXY0 op f = .ok i) : encode i = op := by
  unfold decodeXY0 at h
  split_ifs at h with hn
  cases h
  rw [hf]
  exact encodeXYN_of_opMajor_opN ha (congrArg BitVec.toNat hn)

theorem encode_of_decodeGroup8 {op : Word} {i : Instr} (ha : (opMajor op).toNat = 0x8)
    (h : decodeGroup8 op = .ok i) : encode i = op := by
  unfold decodeGroup8 at h
  split at h <;> cases h <;> exact encodeXYN_of_opMajor_opN ha ‹_›

theorem encode_of_decodeGroupE {op : Word} {i : Instr} (ha : (opMajor op).toNat = 0xE)
    (h : decodeGroupE op = .ok i) : encode i = op := by
  unfold decodeGroupE at h
  split at h <;> cases h <;> exact encodeXNN_of_opMajor_opNN ha ‹_›

theorem encode_of_decodeGroupF {op : Word} {i : Instr} (ha : (opMajor op).toNat = 0xF)
    (h : decodeGroupF op = .ok i) : encode i = op := by
  unfold decodeGroupF at h
  split at h <;> cases h <;> exact encodeXNN_of_opMajor_opNN ha ‹_›

/-- The cases are the first hex digits: each format is put together again from the word's own fields. -/
theorem encode_of_decode {op : Word} {i : Instr} (h : decode op = .ok i) : encode i = op := by
  unfold decode at h
  split at h
  case h_1 => exact encode_of_decodeGroup0 h
  case h_6 ha | h_10 ha => exact encode_of_decodeXY0 ha (fun _ _ => rfl) h
  case h_9 ha => exact encode_of_decodeGroup8 ha h
  case h_15 ha => exact encode_of_decodeGroupE ha h
  case h_16 ha => exact encode_of_decodeGroupF ha h
  case h_2 ha | h_3 ha | h_11 ha | h_12 ha => cases h; exact encodeAddr_of_opMajor ha
  case h_4 ha | h_5 ha | h_7 ha | h_8 ha | h_13 ha => cases h; exact encodeXNN_of_opMajor ha
  case h_14 ha => cases h; exact encodeXYN_of_opMajor ha
  case h_17 => cases h

/-- Settles O2: `decode_wf` and `encode_of_decode`. -/
theorem decodeThenEncode : Obligations.DecodeThenEncode := by
  unfold Obligations.DecodeThenEncode
  exact fun _ _ h => ⟨decode_wf h, encode_of_decode h⟩

/-! ### The fields of a word given as a number -/

@[simp] theorem opMajor_ofNat (n : Nat) : opMajor (BitVec.ofNat 16 n) = BitVec.ofNat 4 (n / 4096) := by
  apply BitVec.eq_of_toNat_eq
  simp only [opMajor, BitVec.extractLsb'_toNat, BitVec.toNat_ofNat, Nat.shiftRight_eq_div_pow]
  omega

@[simp] theorem opN_ofNat (n : Nat) : opN (BitVec.ofNat 16 n) = BitVec.ofNat 4 n := by
  apply BitVec.eq_of_toNat_eq
  simp [opN]

@[simp] theorem opNN_ofNat (n : Nat) : opNN (BitVec.ofNat 16 n) = BitVec.ofNat 8 n := by
  apply BitVec.eq_of_toNat_eq
  simp [opNN]

/-! ### The rows of the opcode table (R113, R134) -/

/-- A word that a row selects decodes to an instruction of that row: the bits under the mask are the fields the decoder
dispatches on. -/
theorem decode_of_selects {j : Instr} {op : Word} (h : j.row.selects op = true) :
    ∃ i, decode op = .ok i ∧ i.row = j.row := by
  have hmask : op &&& j.row.mask = j.row.value := beq_iff_eq.1 h
  cases j with
  | cls | ret | low | high =>
    obtain rfl := (and_FFFF op).symm.trans hmask
    exact ⟨_, rfl, rfl⟩
  | scd _ =>
    obtain ⟨hmajor, hhigh⟩ := fields_of_and_FFF0 hmask
    exact ⟨.scd (opN op), by simp [decode, decodeGroup0, hmajor, hhigh, Instr.row], rfl⟩
  | jp _ | call _ | ldI _ | jpV0 _ | seImm _ _ | sneImm _ _ | ldImm _ _ | addImm _ _ | rnd _ _ | drw _ _ _ =>
    simp [decode, opMajor_of_and_F000 hmask, Instr.row]
  | seReg _ _ | sneReg _ _ =>
    obtain ⟨hmajor, hn⟩ := fields_of_and_F00F hmask
    simp [decode, decodeXY0, hmajor, hn, Instr.row]
  | ldReg _ _ | or _ _ | and _ _ | xor _ _ | addReg _ _ | sub _ _ | shr _ _ | subn _ _ | shl _ _ =>
    obtain ⟨hmajor, hn⟩ := fields_of_and_F00F hmask
    simp [decode, decodeGroup8, hmajor, hn, Instr.row]
  | skp _ | sknp _ =>
    obtain ⟨hmajor, hnn⟩ := fields_of_and_F0FF hmask
    simp [decode, decodeGroupE, hmajor, hnn, Instr.row]
  | ldVxDt _ | ldVxK _ | ldDtVx _ | ldStVx _ | addIVx _ | ldFVx _ | ldBVx _ | ldMemVx _ | ldVxMem _ | ldRVx _
  | ldVxR _ =>
    obtain ⟨hmajor, hnn⟩ := fields_of_and_F0FF hmask
    simp [decode, decodeGroupF, hmajor, hnn, Instr.row]

/-- The lemmas of Laws/PerInstr.lean, put together. -/
theorem row_selects_encode : ∀ i : Instr, i.row.selects (encode i) = true
  | .cls => Laws.TableRow.cls
  | .ret => Laws.TableRow.ret
  | .scd n => Laws.TableRow.scd n
  | .low => Laws.TableRow.low
  | .high => Laws.TableRow.high
  | .jp a => Laws.TableRow.jp a
  | .call a => Laws.TableRow.call a
  | .seImm x nn => Laws.TableRow.seImm x nn
  | .sneImm x nn => Laws.TableRow.sneImm x nn
  | .seReg x y => Laws.TableRow.seReg x y
  | .ldImm x nn => Laws.TableRow.ldImm x nn
  | .addImm x nn => Laws.TableRow.addImm x nn
  | .ldReg x y => Laws.TableRow.ldReg x y
  | .or x y => Laws.TableRow.or x y
  | .and x y => Laws.TableRow.and x y
  | .xor x y => Laws.TableRow.xor x y
  | .addReg x y => Laws.TableRow.addReg x y
  | .sub x y => Laws.TableRow.sub x y
  | .shr x y => Laws.TableRow.shr x y
  | .subn x y => Laws.TableRow.subn x y
  | .shl x y => Laws.TableRow.shl x y
  | .sneReg x y => Laws.TableRow.sneReg x y
  | .ldI a => Laws.TableRow.ldI a
  | .jpV0 a => Laws.TableRow.jpV0 a
  | .rnd x nn => Laws.TableRow.rnd x nn
  | .drw x y n => Laws.TableRow.drw x y n
  | .skp x => Laws.TableRow.skp x
  | .sknp x => Laws.TableRow.sknp x
  | .ldVxDt x => Laws.TableRow.ldVxDt x
  | .ldVxK x => Laws.TableRow.ldVxK x
  | .ldDtVx x => Laws.TableRow.ldDtVx x
  | .ldStVx x => Laws.TableRow.ldStVx x
  | .addIVx x => Laws.TableRow.addIVx x
  | .ldFVx x => Laws.TableRow.ldFVx x
  | .ldBVx x => Laws.TableRow.ldBVx x
  | .ldMemVx x => Laws.TableRow.ldMemVx x
  | .ldVxMem x => Laws.TableRow.ldVxMem x
  | .ldRVx x => Laws.TableRow.ldRVx x
  | .ldVxR x => Laws.TableRow.ldVxR x

theorem row_mem_opcodeTable (i : Instr) : i.row ∈ opcodeTable := by
  cases i <;> simp [opcodeTable, rowsOf, Instr.row]

/-- The values of the 39 rows differ. -/
theorem opcodeTable_nodup : opcodeTable.Nodup := by
  have : (opcodeTable.map OpcodeRow.value).Nodup := by decide
  exact this.of_map _

theorem exists_row_of_mem {r : OpcodeRow} (h : r ∈ opcodeTable) : ∃ j : Instr, j.row = r := by
  simp only [opcodeTable, rowsOf, ← List.map_append] at h
  obtain ⟨j, -, hj⟩ := List.mem_map.1 h
  exact ⟨j, hj⟩

/-- Of the table's rows, the row of its instruction alone selects a word that decodes. -/
theorem selects_iff_eq_row {op : Word} {i : Instr} {r : OpcodeRow} (hd : decode op = .ok i) (hr : r ∈ opcodeTable) :
    r.selects op = true ↔ r = i.row := by
  refine ⟨fun hsel => ?_, ?_⟩
  · obtain ⟨j, rfl⟩ := exists_row_of_mem hr
    obtain ⟨k, hk, hrow⟩ := decode_of_selects hsel
    obtain rfl : i = k := Except.ok.inj (hd.symm.trans hk)
    exact hrow.symm
  · rintro rfl
    exact encode_of_decode hd ▸ row_selects_encode i

/-- Settles O3: a word that decodes is selected by its row alone (`selects_iff_eq_row`), which is in the table once; a
word that some row selects is not rejected (`decode_of_selects`). -/
theorem decodeSelectsTheUniqueRow : Obligations.DecodeSelectsTheUniqueRow := by
  unfold Obligations.DecodeSelectsTheUniqueRow
  refine fun op => ⟨fun i hd => ?_, fun e he => ?_⟩
  · calc opcodeTable.filter (fun r => r.selects op)
      _ = opcodeTable.filter (· == i.row) :=
        List.filter_congr fun r hr => Bool.eq_iff_iff.2 ((selects_iff_eq_row hd hr).trans beq_iff_eq.symm)
      _ = List.replicate (opcodeTable.count i.row) i.row := List.filter_beq ..
      _ = [i.row] := by rw [List.count_eq_one_of_mem opcodeTable_nodup (row_mem_opcodeTable i), List.replicate_one]
  · refine List.filter_eq_nil_iff.2 fun r hr hsel => ?_
    obtain ⟨j, rfl⟩ := exists_row_of_mem hr
    obtain ⟨i, hi, -⟩ := decode_of_selects hsel
    cases hi.symm.trans he

/-! ### The illegal words (R110) -/

/-- The 0-group is the words up to 0x0FFF. -/
theorem opMajor_eq_zero_iff (op : Word) : opMajor op = 0x0#4 ↔ op ≤ 0x0FFF#16 := by
  rw [← BitVec.toNat_inj, BitVec.le_def]
  simp only [opMajor, BitVec.extractLsb'_toNat, BitVec.toNat_ofNat, Nat.shiftRight_eq_div_pow]
  have := op.isLt
  omega

/-- The words of 00CN are 0x00C0 to 0x00CF. -/
theorem high_eq_scd_iff (op : Word) : op.extractLsb' 4 12 = 0x00C#12 ↔ 0x00C0#16 ≤ op ∧ op ≤ 0x00CF#16 := by
  rw [← BitVec.toNat_inj, BitVec.le_def, BitVec.le_def]
  simp only [BitVec.extractLsb'_toNat, BitVec.toNat_ofNat, Nat.shiftRight_eq_div_pow]
  have := op.isLt
  omega

theorem decodeGroup0_rejects_iff (op : Word) : (∃ e, decodeGroup0 op = .error e) ↔
    ¬ (0x00C0#16 ≤ op ∧ op ≤ 0x00CF#16) ∧ op ≠ 0x00E0#16 ∧ op ≠ 0x00EE#16 ∧ op ≠ 0x00FE#16 ∧ op ≠ 0x00FF#16 := by
  rw [← high_eq_scd_iff, decodeGroup0]
  split_ifs <;> simp [*]

theorem decodeXY0_rejects_iff (op : Word) (f : Nibble → Nibble → Instr) :
    (∃ e, decodeXY0 op f = .error e) ↔ opN op ≠ 0x0#4 := by
  rw [decodeXY0]
  split_ifs with hn <;> simpa using hn

theorem decodeGroup8_rejects_iff (op : Word) : (∃ e, decodeGroup8 op = .error e) ↔
    opN op ∈ [0x8#4, 0x9#4, 0xA#4, 0xB#4, 0xC#4, 0xD#4, 0xF#4] := by
  have hlt : (opN op).toNat < 16 := (opN op).isLt
  simp only [List.mem_cons, List.not_mem_nil, or_false, ← BitVec.toNat_inj]
  rw [decodeGroup8]
  interval_cases (opN op).toNat <;> simp

theorem decodeGroupE_rejects_iff (op : Word) : (∃ e, decodeGroupE op = .error e) ↔ opNN op ∉ [0x9E#8, 0xA1#8] := by
  simp only [List.mem_cons, List.not_mem_nil, or_false, ← BitVec.toNat_inj]
  rw [decodeGroupE]
  split <;> simp_all

theorem decodeGroupF_rejects_iff (op : Word) : (∃ e, decodeGroupF op = .error e) ↔
    opNN op ∉ [0x07#8, 0x0A#8, 0x15#8, 0x18#8, 0x1E#8, 0x29#8, 0x33#8, 0x55#8, 0x65#8, 0x75#8, 0x85#8] := by
  simp only [List.mem_cons, List.not_mem_nil, or_false, ← BitVec.toNat_inj]
  rw [decodeGroupF]
  split <;> simp_all

/-- The cases are the first hex digits: each gives one group, and one line of the list or none. -/
theorem decode_rejects_iff (op : Word) : (∃ e, decode op = .error e) ↔ IllegalWord op := by
  have hlt : (opMajor op).toNat < 16 := (opMajor op).isLt
  rw [IllegalWord, ← opMajor_eq_zero_iff, ← decodeGroup0_rejects_iff, ← decodeXY0_rejects_iff op .seReg,
    ← decodeGroup8_rejects_iff, ← decodeGroupE_rejects_iff, ← decodeGroupF_rejects_iff]
  simp only [← BitVec.toNat_inj]
  rw [decode]
  interval_cases (opMajor op).toNat <;> simp [decodeXY0_rejects_iff]

/-- A step that fetches a listed word raises IllegalInstruction of it (spec/60_exceptions.md R305). -/
theorem step_of_illegalWord {s : State} (hr : s.run = .running) (hpc : s.pc ≤ 0xFFE#16)
    (h : IllegalWord (s.mem.readWord s.pc.toNat)) :
    Raises (step s) s (.illegalInstruction (s.mem.readWord s.pc.toNat)) := by
  obtain ⟨e, he⟩ := (decode_rejects_iff _).2 h
  have hfit : s.pc.toNat + 2 ≤ 0x1000 := by bv_omega
  rw [step_of_fetch hr hfit, he]
  rfl

/-- Settles O4: the rejected words are the listed ones (`decode_rejects_iff`), and fetching one raises
(`step_of_illegalWord`). -/
theorem illegalWordsHalt : Obligations.IllegalWordsHalt := by
  unfold Obligations.IllegalWordsHalt
  exact ⟨decode_rejects_iff, fun _ => step_of_illegalWord⟩

/-! ### Sample words -/

/-- Settles O5: the decoder is run on each word. -/
theorem sampleWordsDecode : Obligations.SampleWordsDecode := by
  unfold Obligations.SampleWordsDecode
  exact ⟨rfl, rfl, rfl, rfl, rfl, rfl, rfl, rfl, rfl, rfl, rfl⟩

end Sys2Proof.Machine
end

section
/-! SUPPORT. The step's outcome (spec/40_execution.md sections 1, 2 and 4): a fetch past the top of memory, Halted as the
terminal run state, and the status a step returns. -/

namespace Sys2Proof.Machine

/-! ### A fetch past the top (spec/40_execution.md R133) -/

/-- The lowest bad address is 0x1000 for an access that starts inside memory, and else the access's first (R73). -/
theorem lowestBadAddress_of_le {a : Nat} (h : a ≤ memSize) : lowestBadAddress a = memSize := max_eq_right h

theorem lowestBadAddress_of_ge {a : Nat} (h : memSize ≤ a) : lowestBadAddress a = a := max_eq_left h

/-- Settles O7: both fetches pass 0xFFF (`step_of_pc_past`), one starting inside memory and one above it. -/
theorem fetchPastTheTopRaises : Obligations.FetchPastTheTopRaises := by
  unfold Obligations.FetchPastTheTopRaises
  have hsize : memSize = 0x1000 := rfl
  refine fun s hr => ⟨fun hpc => ?_, fun hpc => ?_⟩
  · have hnat : s.pc.toNat = 0xFFF := congrArg BitVec.toNat hpc
    have hlow : lowestBadAddress s.pc.toNat = 0x1000 := lowestBadAddress_of_le (by omega)
    rw [Raises, step_of_pc_past hr (by omega), hlow, raise_eq]
  · have hnat : 0xFFF < s.pc.toNat := hpc
    have hlow : lowestBadAddress s.pc.toNat = s.pc.toNat := lowestBadAddress_of_ge (by omega)
    rw [Raises, step_of_pc_past hr (by omega), hlow, raise_eq]

/-! ### The status of a step (spec/40_execution.md R138) -/

theorem State.status_of_running {s : State} (h : s.run = .running) : s.status = .ok := by
  simp only [State.status, h]

theorem State.status_of_waiting {s : State} {x : Nibble} (h : s.run = .waitingForKey x) : s.status = .stillWaiting := by
  simp only [State.status, h]

theorem State.status_of_halted {s : State} {e : ErrorRecord} (h : s.run = .halted e) : s.status = .halted e := by
  simp only [State.status, h]

theorem stepStatus_of_next {s t : State} (h : step s = .next t) : stepStatus s = some t.status := by
  simp only [stepStatus, h]

theorem stepStatus_of_halted {s : State} {e : ErrorRecord} (h : s.run = .halted e) :
    stepStatus s = some (.halted e) := by
  rw [stepStatus_of_next (step_of_halted h), State.status_of_halted h]

/-! ### Halted is terminal (spec/40_execution.md R131) -/

@[simp] theorem tick_run (s : State) : (tick s).run = s.run := rfl

@[simp] theorem setKey_run (k : Nibble) (p : Bool) (s : State) : (setKey k p s).run = s.run := rfl

/-- A load of an image that fits gives Running (spec/70_reset_and_hazards.md R331). -/
theorem load_run_of_fits {bytes : List Byte} (h : romFits bytes = true) (inputs : LoadInputs) (s : State) :
    (load bytes inputs s).run = .running := if_pos h

/-- In Halted no transition but a load changes the run state. -/
theorem transition_of_halted {s t : State} {e : ErrorRecord} {ev : Event} (hs : s.run = .halted e)
    (hload : ∀ b inputs, ev ≠ .load b inputs) (h : transition ev s = .next t) : t.run = .halted e := by
  cases ev with
  | step =>
    obtain rfl : s = t := Host.Outcome.next.inj ((step_of_halted hs).symm.trans h)
    exact hs
  | tick => cases h; exact (tick_run s).trans hs
  | setKey k p => cases h; exact (setKey_run k p s).trans hs
  | load b inputs => exact absurd rfl (hload b inputs)

/-- Settles O8: the step is a no-op (`step_of_halted`), the other transitions keep the run state
(`transition_of_halted`), and a load of at most 3584 bytes fits. -/
theorem haltedIsTerminal : Obligations.HaltedIsTerminal := by
  unfold Obligations.HaltedIsTerminal
  refine ⟨fun s e hs => ⟨step_of_halted hs, stepStatus_of_halted hs⟩, fun s t e ev => transition_of_halted, ?_⟩
  intro s bytes inputs hlen
  exact load_run_of_fits (decide_eq_true hlen) inputs s

/-! ### The step of a wait (spec/45_keypad_timers.md R283) -/

theorem State.latchedKeys_eq_nil (s : State) : s.latchedKeys = [] ↔ s.latch = noKeys := by
  refine ⟨fun h => Vector.ext fun k hk => ?_, fun h => List.eq_nil_iff_forall_not_mem.2 fun k hk => ?_⟩
  · have hnot : BitVec.ofNatLT k hk ∉ s.latchedKeys := h ▸ List.not_mem_nil
    rw [mem_latchedKeys, Bool.not_eq_true] at hnot
    exact hnot.trans (Vector.getElem_replicate hk).symm
  · rw [mem_latchedKeys] at hk
    simp [h, noKeys] at hk

/-- With no key latched the wait goes on, and nothing changes. -/
theorem completeWait_of_noKeys {s : State} (x : Nibble) (h : s.latch = noKeys) : completeWait x s = .next s := by
  have hnone : chooseFrom (Config.keyChoice s.draws) s.latchedKeys = none :=
    (chooseFrom_eq_none _ _).2 (s.latchedKeys_eq_nil.2 h)
  simp only [completeWait, hnone]

/-- With a key latched the wait ends in Running, some latched key going to VX. -/
theorem completeWait_of_latched {s : State} (x : Nibble) (h : s.latch ≠ noKeys) :
    ∃ k, k ∈ s.latchedKeys ∧ completeWait x s = .next (State.advance (State.countDraw
      { s.writeV x (k.setWidth 8) with latch := noKeys, run := .running })) := by
  cases hk : chooseFrom (Config.keyChoice s.draws) s.latchedKeys with
  | none => exact absurd (s.latchedKeys_eq_nil.1 ((chooseFrom_eq_none _ _).1 hk)) h
  | some k => exact ⟨k, chooseFrom_mem hk, by simp only [completeWait, hk]⟩

theorem stepStatus_of_waiting {s : State} {x : Nibble} (hr : s.run = .waitingForKey x) :
    stepStatus s = some (if s.latch = noKeys then .stillWaiting else .ok) := by
  by_cases h : s.latch = noKeys
  · rw [if_pos h, stepStatus_of_next ((step_of_waiting hr).trans (completeWait_of_noKeys x h)),
      State.status_of_waiting hr]
  · obtain ⟨k, -, hk⟩ := completeWait_of_latched x h
    rw [if_neg h, stepStatus_of_next ((step_of_waiting hr).trans hk), State.status_of_running rfl]

/-! ### The run state after an instruction -/

@[simp] theorem setMode_run (m : Mode) (s : State) : (setMode m s).run = s.run := by
  unfold setMode
  split <;> rfl

/-- Of the instructions that raise no error, FX0A alone writes the run state. -/
theorem Effect.run_eq {s t : State} {i : Instr} (h : Effect s t i) (hi : ∀ x, i ≠ .ldVxK x) : t.run = s.run := by
  cases i with
  | ldVxK x => exact absurd rfl (hi x)
  | low | high => subst h; exact setMode_run _ s
  | drw x y n => rcases h with ⟨-, -, -, rfl⟩ | ⟨-, -, rfl⟩ <;> rfl
  | ret => obtain ⟨-, -, rfl⟩ := h; rfl
  | addReg x y | sub x y | shr x y | subn x y | shl x y => obtain ⟨r, f, rfl⟩ := h; rfl
  | skp x | sknp x | ldFVx x => obtain ⟨k, -, rfl⟩ := h; rfl
  | call a | ldBVx x | ldMemVx x | ldVxMem x | ldRVx x | ldVxR x => obtain ⟨-, rfl⟩ := h; rfl
  | _ => subst h; rfl

/-- Settles O9: each run state after the step goes with one status, and in Running the step raises an error, enters the
wait by FX0A, or leaves the run state as it was (`step_next`, `Effect.run_eq`). -/
theorem statusOfAStep : Obligations.StatusOfAStep := by
  unfold Obligations.StatusOfAStep
  refine ⟨fun s e => stepStatus_of_halted, fun s x => stepStatus_of_waiting, fun s t hr h => ?_⟩
  rw [stepStatus_of_next h]
  rcases step_next h with ⟨⟨e, hhalted⟩, -⟩ | ⟨x, hwaiting, -⟩ | ⟨k, -, hraise⟩ | ⟨i, -, -, hd, heff⟩
  · cases hr.symm.trans hhalted
  · cases hr.symm.trans hwaiting
  · cases hraise
    exact .inl ⟨_, rfl, rfl⟩
  · by_cases hi : ∃ x, i = .ldVxK x
    · obtain ⟨x, rfl⟩ := hi
      subst heff
      exact .inr (.inl ⟨x, hd, rfl, rfl⟩)
    · have hne : ∀ x, i ≠ .ldVxK x := not_exists.1 hi
      have hrun : t.run = .running := (heff.run_eq hne).trans hr
      exact .inr (.inr ⟨i, hd, hne, hrun, congrArg some (State.status_of_running hrun)⟩)

end Sys2Proof.Machine
end

section
/-! SUPPORT. Control transfer (spec/41_control_flow.md): the jumps, the call and its return, the register skips, and the
jump to itself that a successful run ends in. -/

namespace Sys2Proof.Machine

/-! ### The words that a mask selects (spec/30_encoding.md R102, R134)

Such a word is put together again from the fields the mask fixes and its own, so it is the encoding of its instruction. -/

theorem encodedBy_of_encode {mask value : Word} {f : Word → Instr} (hwf : ∀ op, (f op).wf = true)
    (henc : ∀ op, op &&& mask = value → encode (f op) = op) : EncodedBy mask value f := by
  intro op h
  have hdecode : decode (encode (f op)) = .ok (f op) := decode_encode (hwf op)
  rwa [henc op h] at hdecode

/-- Format ADDR. -/
theorem encodedBy_addr {value : Word} {f : Word → Instr} (hwf : ∀ a, addressFits a → (f a).wf = true)
    (henc : ∀ a, encode (f a) = encodeAddr (opMajor value) a) : EncodedBy 0xF000 value (fun op => f (opNNN op)) := by
  refine encodedBy_of_encode (fun op => hwf _ (addressFits_opNNN op)) fun op h => ?_
  rw [henc, ← opMajor_of_and_F000 h, word_eq_encodeAddr]

/-- Format XNN. -/
theorem encodedBy_xnn {value : Word} {f : Nibble → Byte → Instr} (hwf : ∀ x nn, (f x nn).wf = true)
    (henc : ∀ x nn, encode (f x nn) = encodeXNN (opMajor value) x nn) :
    EncodedBy 0xF000 value (fun op => f (opX op) (opNN op)) := by
  refine encodedBy_of_encode (fun op => hwf _ _) fun op h => ?_
  rw [henc, ← opMajor_of_and_F000 h, word_eq_encodeXNN]

/-- Format XY, whose N is a minor opcode. -/
theorem encodedBy_xy {value : Word} {f : Nibble → Nibble → Instr} (hwf : ∀ x y, (f x y).wf = true)
    (henc : ∀ x y, encode (f x y) = encodeXYN (opMajor value) x y (opN value)) :
    EncodedBy 0xF00F value (fun op => f (opX op) (opY op)) := by
  refine encodedBy_of_encode (fun op => hwf _ _) fun op h => ?_
  obtain ⟨hmajor, hn⟩ := fields_of_and_F00F h
  rw [henc, ← hmajor, ← hn, word_eq_encodeXYN]

/-! ### The call and its return (R150, R152) -/

/-- One more than a depth below 16 does not wrap (spec/10_state.md R38). -/
theorem toNat_depth_add_one {d : Byte} (h : d.toNat < stackDepth) : (d + 1).toNat = d.toNat + 1 := by
  have hlt : d.toNat < 16 := h
  bv_omega

theorem exec_call (nnn : Word) (s : State) :
    exec (.call nnn) s = pushThen s (s.pc + 2) fun t => .next (t.jump nnn) := rfl

theorem exec_ret (s : State) : exec .ret s = popThen s fun a t => .next (t.jump a) := rfl

theorem exec_call_room {s : State} (nnn : Word) (h : s.sp.toNat < stackDepth) :
    exec (.call nnn) s =
      .next { s with pc := nnn, sp := s.sp + 1, stack := s.stack.set s.sp.toNat (s.pc + 2) h } := by
  rw [exec_call, pushThen_room _ _ h]
  rfl

theorem exec_call_full {s : State} (nnn : Word) (h : stackDepth ≤ s.sp.toNat) :
    Raises (exec (.call nnn) s) s .stackOverflow := by
  rw [Raises, exec_call, pushThen_full _ _ h, raise_eq]

theorem exec_ret_empty {s : State} (h : s.sp = 0) : Raises (exec .ret s) s .stackUnderflow := by
  rw [Raises, exec_ret, popThen_empty _ h, raise_eq]

/-- At depth d + 1 the popped entry is that of index d. -/
theorem exec_ret_live {s : State} {d : Nat} (hd : d < stackDepth) (hsp : s.sp.toNat = d + 1) :
    exec .ret s = .next { s with pc := s.stack[d], sp := s.sp - 1 } := by
  obtain rfl : d = s.sp.toNat - 1 := by omega
  have hlive : s.sp ≠ 0 := by
    intro h
    simp [h] at hsp
  rw [exec_ret, popThen_live _ hlive hd]
  rfl

/-- Settles O33: below depth 16 the pushed entry is the only one written (`exec_call_room`), and at depth 16 the push
raises (`exec_call_full`). -/
theorem callPushesTheReturnAddress : Obligations.CallPushesTheReturnAddress := by
  unfold Obligations.CallPushesTheReturnAddress
  refine ⟨fun s nnn h => ⟨_, exec_call_room nnn h, rfl, toNat_depth_add_one h, Vector.getElem_set_self h, ?_, rfl⟩,
    fun s nnn hfull => exec_call_full nnn ?_, encodedBy_addr (fun _ => decide_eq_true) fun _ => rfl⟩
  · intro k hk
    exact Vector.getElem_set_ne h k.isLt hk.symm
  · rw [hfull]
    decide

/-- Settles O34: at depth 1 to 16 the pc and the depth alone are written (`exec_ret_live`), and at depth 0 the pop raises
(`exec_ret_empty`). -/
theorem returnPopsTheStack : Obligations.ReturnPopsTheStack := by
  unfold Obligations.ReturnPopsTheStack
  refine ⟨fun s h hpos => ⟨_, exec_ret_live h (Nat.sub_add_cancel hpos).symm, rfl, ?_, rfl⟩,
    fun s => exec_ret_empty, decode_encode (i := .ret) rfl⟩
  show (s.sp - 1).toNat = s.sp.toNat - 1
  bv_omega

/-- Settles O35: the call leaves pc + 2 at the old depth (`exec_call_room`), and in `u` that is the entry that the return
pops (`exec_ret_live`). -/
theorem callThenReturn : Obligations.CallThenReturn := by
  unfold Obligations.CallThenReturn
  intro s t u nnn h hcall hsp hentry
  rw [exec_call_room nnn h] at hcall
  cases hcall
  have hdepth : u.sp.toNat = s.sp.toNat + 1 := by rw [hsp, toNat_depth_add_one h]
  have htop : u.stack[s.sp.toNat] = s.pc + 2 := hentry.trans (Vector.getElem_set_self h)
  have hback : u.sp - 1 = s.sp := by rw [hsp, BitVec.add_sub_cancel]
  rw [exec_ret_live h hdepth, htop, hback]

/-! ### The jumps (R151, R153) -/

theorem exec_jp (nnn : Word) (s : State) : exec (.jp nnn) s = .next { s with pc := nnn } := rfl

theorem exec_jpV0 (nnn : Word) (s : State) : exec (.jpV0 nnn) s = .next { s with pc := jumpTargetV0 s nnn } := rfl

/-- The sum of an address of 12 bits and a register does not wrap, and it is not reduced to 12 bits. -/
theorem toNat_jumpTargetV0 (s : State) {nnn : Word} (h : addressFits nnn) :
    (jumpTargetV0 s nnn).toNat = nnn.toNat + (s.readV 0).toNat := by
  have hlt : (s.readV 0).toNat < 256 := (s.readV 0).isLt
  unfold jumpTargetV0
  bv_omega

/-- Settles O32: `exec_jp` and `exec_jpV0`, whose target does not wrap (`toNat_jumpTargetV0`). -/
theorem jumpsSetThePc : Obligations.JumpsSetThePc := by
  unfold Obligations.JumpsSetThePc
  exact ⟨fun s nnn => exec_jp nnn s, fun s nnn h => ⟨_, exec_jpV0 nnn s, toNat_jumpTargetV0 s h, rfl⟩,
    encodedBy_addr (fun _ => decide_eq_true) fun _ => rfl, encodedBy_addr (fun _ => decide_eq_true) fun _ => rfl⟩

/-! ### The register skips (R136, R154 to R157) -/

/-- An instruction that advances by `skipIf` of a test skips exactly if what the test decides holds. -/
theorem skipsIf_of_test {i : Instr} {s : State} {b : Bool} {c : Prop} (hexec : exec i s = .next (s.skipIf b))
    (htest : b = true ↔ c) : SkipsIf i s c := by
  refine ⟨fun hc => ?_, fun hc => ?_⟩
  · rw [hexec, htest.2 hc]
    rfl
  · rw [hexec, Bool.eq_false_of_not_eq_true (mt htest.1 hc)]
    rfl

/-- Settles O37: each of the four is a `skipIf` of the comparison it names (`skipsIf_of_test`). -/
theorem registerSkips : Obligations.RegisterSkips := by
  unfold Obligations.RegisterSkips
  exact ⟨fun s x y nn => ⟨skipsIf_of_test rfl beq_iff_eq, skipsIf_of_test rfl bne_iff_ne,
      skipsIf_of_test rfl beq_iff_eq, skipsIf_of_test rfl bne_iff_ne⟩,
    encodedBy_xnn (fun _ _ => rfl) fun _ _ => rfl, encodedBy_xnn (fun _ _ => rfl) fun _ _ => rfl,
    encodedBy_xy (fun _ _ => rfl) fun _ _ => rfl, encodedBy_xy (fun _ _ => rfl) fun _ _ => rfl⟩

/-! ### The jump to itself (spec/70_reset_and_hazards.md R346) -/

/-- The word of a final state is that of the jump to its pc: an address of 12 bits leaves the first hex digit free. -/
theorem or_1000_eq_encode_jp {a : Word} (h : addressFits a) : 0x1000#16 ||| a = encode (.jp a) := by
  have hlt : a.toNat < 4096 := Nat.lt_succ_of_le h
  have happend : (encode (.jp a)).toNat = 1 <<< 12 ||| (a.extractLsb' 0 12).toNat := BitVec.toNat_append 0x1#4 _
  apply BitVec.eq_of_toNat_eq
  rw [happend]
  simp [Nat.mod_eq_of_lt hlt]

/-- A state that jumps to its own pc steps to itself. -/
theorem State.isFinal.step_eq {s : State} {endPc : Word} (h : s.isFinal endPc) : step s = .next s := by
  obtain ⟨hrun, rfl, hfit, hword⟩ := h
  have haddr : addressFits s.pc := by
    have : s.pc.toNat + 2 ≤ 0x1000 := hfit
    bv_omega
  have hdecode : decode (s.mem.readWord s.pc.toNat) = .ok (.jp s.pc) := by
    rw [hword, or_1000_eq_encode_jp haddr]
    exact decode_encode (decide_eq_true haddr)
  rw [step_of_decode hrun hfit hdecode, exec_jp]

/-- A machine whose step leaves a state as it is leaves it so for any number of steps. -/
theorem run_of_step_self {M : Host.Core} {s : M.State} (h : M.step s = .next s) (n : Nat) : M.run n s = .next s := by
  induction n with
  | zero => rfl
  | succ n ih => simp only [Host.Core.run, h, ih]

/-- Settles O60: a final state steps to itself (`State.isFinal.step_eq`), so it stays (`run_of_step_self`). -/
theorem finalStateIsStable : Obligations.FinalStateIsStable := by
  unfold Obligations.FinalStateIsStable
  exact fun s endPc n h => run_of_step_self (M := core) h.step_eq n

end Sys2Proof.Machine
end

section
/-! SUPPORT. The register and arithmetic instructions (spec/42_alu.md): the registers they write, the results as numbers,
and the flags. -/

namespace Sys2Proof.Machine

/-! ### What the two forms write (spec/40_execution.md R135, R140) -/

/-- An instruction that writes `b` to VX and advances writes the number of `b` to VX. -/
theorem writesRegister_of_exec {i : Instr} {s : State} {x : Nibble} {b : Byte} {r : Nat}
    (hexec : exec i s = .next (s.writeV x b).advance) (hr : b.toNat = r) : WritesRegister i s x r := by
  refine ⟨_, hexec, ?_, fun z hz => ?_, rfl⟩
  · rw [State.readV_advance, State.readV_writeV_same, hr]
  · rw [State.readV_advance, State.readV_writeV_ne s b hz]

/-- An instruction that writes a result to VX, a flag to VF last, and advances: with X = F the flag is what stays. -/
theorem writesResultAndFlag_of_exec {i : Instr} {s : State} {x : Nibble} {b c : Byte} {r f : Nat}
    (hexec : exec i s = .next (s.writeResultAndFlag x b c).advance) (hr : b.toNat = r) (hf : c.toNat = f) :
    WritesResultAndFlag i s x r f := by
  refine ⟨_, hexec, ?_, fun (hx : x ≠ vF) => ?_, fun z hzx (hzF : z ≠ vF) => ?_, rfl⟩
  · rw [State.readV_advance, ← hf]
    exact congrArg BitVec.toNat (State.writeResultAndFlag_flag s x b c)
  · rw [State.readV_advance, State.readV_writeResultAndFlag, if_neg hx, if_pos rfl, hr]
  · rw [State.readV_advance, State.readV_writeResultAndFlag, if_neg hzF, if_neg hzx]

/-! ### Results and flags as numbers (R186, R187, R192 to R194) -/

/-- The difference modulo 256, from a sum that cannot be negative. -/
theorem toNat_sub_byte (a b : Byte) : (a - b).toNat = (256 + a.toNat - b.toNat) % 256 := by
  have hb : b.toNat < 256 := b.isLt
  rw [BitVec.toNat_sub]
  omega

theorem toNat_shiftRight_one (a : Byte) : (a >>> 1).toNat = a.toNat / 2 := by
  rw [BitVec.toNat_ushiftRight, Nat.shiftRight_eq_div_pow, pow_one]

theorem toNat_shiftLeft_one (a : Byte) : (a <<< 1).toNat = a.toNat * 2 % 256 := by
  rw [BitVec.toNat_shiftLeft, Nat.shiftLeft_eq, pow_one]

/-- A flag that decides a condition. -/
theorem flagByte_decide_toNat (p : Prop) [Decidable p] : (flagByte (decide p)).toNat = if p then 1 else 0 := by
  rw [flagByte_toNat]
  exact if_congr decide_eq_true_iff rfl rfl

theorem carryFlag_toNat (a b : Byte) : (carryFlag a b).toNat = if 255 < a.toNat + b.toNat then 1 else 0 :=
  flagByte_decide_toNat _

theorem notBorrowFlag_toNat (a b : Byte) : (notBorrowFlag a b).toNat = if b.toNat ≤ a.toNat then 1 else 0 :=
  flagByte_decide_toNat _

/-- A flag that is bit k of a byte. -/
theorem flagByte_getLsbD_toNat (a : Byte) (k : Nat) : (flagByte (a.getLsbD k)).toNat = a.toNat / 2 ^ k % 2 := by
  rw [flagByte_toNat, ← Bool.cond_eq_ite]
  exact Nat.toNat_testBit a.toNat k

theorem shiftedOutRight_toNat (a : Byte) : (shiftedOutRight a).toNat = a.toNat % 2 := by
  rw [shiftedOutRight, flagByte_getLsbD_toNat, pow_zero, Nat.div_one]

/-- Bit 7 is the highest bit of a byte. -/
theorem shiftedOutLeft_toNat (a : Byte) : (shiftedOutLeft a).toNat = a.toNat / 128 := by
  have ha : a.toNat < 256 := a.isLt
  rw [shiftedOutLeft, flagByte_getLsbD_toNat]
  omega

/-! ### The instructions -/

/-- Settles O28: the sum and the carry of the old operands (`carryFlag_toNat`), the flag written last. -/
theorem addSetsCarry : Obligations.AddSetsCarry := by
  unfold Obligations.AddSetsCarry
  exact ⟨fun s x y => writesResultAndFlag_of_exec rfl (BitVec.toNat_add _ _) (carryFlag_toNat _ _),
    encodedBy_xy (fun _ _ => rfl) fun _ _ => rfl⟩

/-- Settles O29: the difference (`toNat_sub_byte`) and NOT borrow (`notBorrowFlag_toNat`), with the operands exchanged in
8XY7. -/
theorem subtractSetsNotBorrow : Obligations.SubtractSetsNotBorrow := by
  unfold Obligations.SubtractSetsNotBorrow
  exact ⟨fun s x y =>
      ⟨writesResultAndFlag_of_exec rfl (toNat_sub_byte _ _) (notBorrowFlag_toNat _ _),
        writesResultAndFlag_of_exec rfl (toNat_sub_byte _ _) (notBorrowFlag_toNat _ _)⟩,
    encodedBy_xy (fun _ _ => rfl) fun _ _ => rfl, encodedBy_xy (fun _ _ => rfl) fun _ _ => rfl⟩

/-- Settles O30: the source is `shiftSource` for either option, halved or doubled, and the flag is its lowest or highest
bit (`shiftedOutRight_toNat`, `shiftedOutLeft_toNat`). -/
theorem shiftsFollowTheOption : Obligations.ShiftsFollowTheOption := by
  unfold Obligations.ShiftsFollowTheOption
  refine ⟨fun s x y src hsrc => ?_,
    encodedBy_xy (fun _ _ => rfl) fun _ _ => rfl, encodedBy_xy (fun _ _ => rfl) fun _ _ => rfl⟩
  obtain rfl : src = (shiftSource s x y).toNat := hsrc
  exact ⟨writesResultAndFlag_of_exec rfl (toNat_shiftRight_one _) (shiftedOutRight_toNat _),
    writesResultAndFlag_of_exec rfl (toNat_shiftLeft_one _) (shiftedOutLeft_toNat _)⟩

/-- Settles O26: each writes the byte it names to VX alone (`writesRegister_of_exec`). -/
theorem immediateAndCopy : Obligations.ImmediateAndCopy := by
  unfold Obligations.ImmediateAndCopy
  exact ⟨fun s x y nn => ⟨writesRegister_of_exec rfl rfl, writesRegister_of_exec rfl (BitVec.toNat_add _ _),
      writesRegister_of_exec rfl rfl⟩,
    encodedBy_xnn (fun _ _ => rfl) fun _ _ => rfl, encodedBy_xnn (fun _ _ => rfl) fun _ _ => rfl,
    encodedBy_xy (fun _ _ => rfl) fun _ _ => rfl⟩

/-- Settles O27: each writes the bitwise result to VX alone, so VF is written only as the destination
(`writesRegister_of_exec`). -/
theorem logicalOperations : Obligations.LogicalOperations := by
  unfold Obligations.LogicalOperations
  exact ⟨fun s x y => ⟨writesRegister_of_exec rfl rfl, writesRegister_of_exec rfl rfl, writesRegister_of_exec rfl rfl⟩,
    encodedBy_xy (fun _ _ => rfl) fun _ _ => rfl, encodedBy_xy (fun _ _ => rfl) fun _ _ => rfl,
    encodedBy_xy (fun _ _ => rfl) fun _ _ => rfl⟩

end Sys2Proof.Machine
end

section
/-! SUPPORT. The index register, loads and stores (spec/43_index_memory.md): what each instruction writes when its check
passes, what it raises or refuses when it does not, and a stored block that is loaded again. -/

namespace Sys2Proof.Machine

/-- Format X, whose NN is a minor opcode (spec/30_encoding.md R102). -/
theorem encodedBy_x {value : Word} {f : Nibble → Instr} (hwf : ∀ x, (f x).wf = true)
    (henc : ∀ x, encode (f x) = encodeXNN (opMajor value) x (opNN value)) :
    EncodedBy 0xF0FF value (fun op => f (opX op)) := by
  refine encodedBy_of_encode (fun op => hwf _) fun op h => ?_
  obtain ⟨hmajor, hnn⟩ := fields_of_and_F0FF h
  rw [henc, ← hmajor, ← hnn, word_eq_encodeXNN]

/-! ### Setting the index (R210 to R212) -/

theorem exec_ldI (nnn : Word) (s : State) : exec (.ldI nnn) s = .next { s with I := nnn, pc := s.pc + 2 } := rfl

theorem exec_addIVx (x : Nibble) (s : State) :
    exec (.addIVx x) s = .next { s with I := s.I + (s.readV x).setWidth 16, pc := s.pc + 2 } := rfl

theorem exec_ldFVx_digit {s : State} {x d : Nibble} (h : hexOperand (s.readV x) = some d) :
    exec (.ldFVx x) s = .next { s with I := glyphAddress d, pc := s.pc + 2 } := by
  simp only [exec, execLdFVx, h]
  rfl

theorem exec_ldFVx_noDigit {s : State} {x : Nibble} (h : hexOperand (s.readV x) = none) :
    exec (.ldFVx x) s = .refused (.fontDigitOutOfRange s.pc) := by
  simp only [exec, execLdFVx, h]

/-- The sum of I and a register wraps at 65536, not at the register's 256 (R211). -/
theorem toNat_add_setWidth_byte (i : Word) (b : Byte) : (i + b.setWidth 16).toNat = (i.toNat + b.toNat) % 65536 := by
  have hb : b.toNat < 256 := b.isLt
  bv_omega

/-- No digit's glyph address wraps. -/
theorem toNat_glyphAddress (d : Nibble) : (glyphAddress d).toNat = 5 * d.toNat := by
  have hd : d.toNat < 16 := d.isLt
  unfold glyphAddress
  bv_omega

/-- Settles O38: ANNN and FX1E have no check, and FX29 completes exactly for a VX that is a digit (`hexOperand`), at the
address of that digit's glyph. -/
theorem settingTheIndex : Obligations.SettingTheIndex := by
  unfold Obligations.SettingTheIndex
  refine ⟨fun s x nnn => ⟨exec_ldI nnn s, ⟨_, exec_addIVx x s, toNat_add_setWidth_byte _ _, rfl⟩, fun hdigit => ?_,
      fun hlarge => exec_ldFVx_noDigit (hexOperand_of_gt hlarge)⟩,
    encodedBy_addr (fun _ => decide_eq_true) fun _ => rfl, encodedBy_x (fun _ => rfl) fun _ => rfl,
    encodedBy_x (fun _ => rfl) fun _ => rfl⟩
  have hd := hexOperand_of_le hdigit
  exact ⟨_, exec_ldFVx_digit hd, (toNat_glyphAddress _).trans (congrArg (5 * ·) (hexOperand_value hd)), rfl⟩

/-! ### The check of an access from I (spec/20_memory.md R73) -/

/-- An instruction that checks the bytes I to I + n raises if the last of them is past 0xFFF. -/
theorem raises_of_access {i : Instr} {s : State} {n : Nat} {k : StepResult}
    (hexec : exec i s = accessThen s s.I.toNat (n + 1) k) (h : 0xFFF < s.I.toNat + n) :
    Raises (exec i s) s (.addressOutOfBounds (max s.I.toNat 0x1000)) := by
  rw [Raises, hexec, accessThen_past k (Nat.succ_lt_succ h), raise_eq, lowestBadAddress]

/-! ### The decimal digits (R213) -/

/-- A BCD store inside memory completes. -/
theorem exec_ldBVx_fits {s : State} (x : Nibble) (h : s.I.toNat + 3 ≤ memSize) :
    exec (.ldBVx x) s = .next { s with
      mem := s.mem.writeBytes s.I.toNat (bcdDigits (s.readV x)), pc := s.pc + 2 } :=
  accessThen_fits _ h

/-- Each digit fits its byte, so the bytes stored read as the digits. -/
theorem toNat_read_bcdDigits (m : Memory) (a : Nat) (v : Byte) :
    ((m.writeBytes a (bcdDigits v)).read a).toNat = v.toNat / 100 ∧
    ((m.writeBytes a (bcdDigits v)).read (a + 1)).toNat = v.toNat / 10 % 10 ∧
    ((m.writeBytes a (bcdDigits v)).read (a + 2)).toNat = v.toNat % 10 := by
  have hv : v.toNat < 256 := v.isLt
  have hread (k : Nat) (hk : k < 3) := m.read_writeBytes_inside a k (bcdDigits v) hk
  have h0 : (m.writeBytes a (bcdDigits v)).read a = BitVec.ofNat 8 (v.toNat / 100) := hread 0 (by decide)
  have h1 : (m.writeBytes a (bcdDigits v)).read (a + 1) = BitVec.ofNat 8 (v.toNat / 10 % 10) := hread 1 (by decide)
  have h2 : (m.writeBytes a (bcdDigits v)).read (a + 2) = BitVec.ofNat 8 (v.toNat % 10) := hread 2 (by decide)
  simp only [h0, h1, h2, BitVec.toNat_ofNat]
  omega

/-- Settles O39: the three digits are the bytes written (`toNat_read_bcdDigits`), and a store whose last byte is past 0xFFF
raises before any of them is written (`raises_of_access`). -/
theorem bcdStoresThreeDigits : Obligations.BcdStoresThreeDigits := by
  unfold Obligations.BcdStoresThreeDigits
  refine ⟨fun s x hfit => ?_, fun s x hpast => raises_of_access rfl hpast, encodedBy_x (fun _ => rfl) fun _ => rfl⟩
  obtain ⟨hhundreds, htens, hones⟩ := toNat_read_bcdDigits s.mem s.I.toNat (s.readV x)
  refine ⟨_, exec_ldBVx_fits x (Nat.succ_le_succ hfit), hhundreds, htens, hones, fun a ha => ?_, rfl⟩
  exact s.mem.read_writeBytes_outside _ (ha.imp_right Nat.succ_le_of_lt)

/-! ### The register block (R214, R216, R217) -/

/-- A transfer inside memory leaves an I that does not wrap. -/
theorem toNat_indexAfterBlock {s : State} {x : Nibble} (h : s.I.toNat + x.toNat ≤ 0xFFF) :
    (indexAfterBlock s x).toNat =
      if s.cfg.loadStoreIncrementsI = true then s.I.toNat + x.toNat + 1 else s.I.toNat := by
  unfold indexAfterBlock
  split
  · bv_omega
  · rfl

/-- Byte k of a stored block is Vk. -/
theorem Memory.read_writeBytes_registerBlock (m : Memory) (a : Nat) (s : State) {x k : Nibble}
    (hk : k.toNat ≤ x.toNat) : (m.writeBytes a (registerBlock s x)).read (a + k.toNat) = s.readV k := by
  have hin : k.toNat < (registerBlock s x).length := by
    rw [length_registerBlock]
    exact Nat.lt_succ_of_le hk
  rw [m.read_writeBytes_inside a k.toNat _ hin, getElem_registerBlock, BitVec.ofNat_toNat, BitVec.setWidth_eq]

/-- A block load inside memory completes. -/
theorem exec_ldVxMem_fits {s : State} {x : Nibble} (h : s.I.toNat + (x.toNat + 1) ≤ memSize) :
    exec (.ldVxMem x) s = .next (State.advance { s with
      V := loadedBlock s x s.I.toNat, I := indexAfterBlock s x }) :=
  accessThen_fits _ h

/-- Settles O40: Vk is byte k of what is written (`Memory.read_writeBytes_registerBlock`), I is `indexAfterBlock`, and a
block that ends past 0xFFF raises before any of it is written (`raises_of_access`). -/
theorem blockStore : Obligations.BlockStore := by
  unfold Obligations.BlockStore
  refine ⟨fun s x hfit => ?_, fun s x hpast => raises_of_access rfl hpast, encodedBy_x (fun _ => rfl) fun _ => rfl⟩
  refine ⟨_, exec_ldMemVx_fits (Nat.succ_le_succ hfit), fun k hk => Memory.read_writeBytes_registerBlock _ _ s hk,
    fun a ha => ?_, toNat_indexAfterBlock hfit, rfl⟩
  refine s.mem.read_writeBytes_outside _ ?_
  rw [length_registerBlock]
  exact ha.imp_right Nat.succ_le_of_lt

/-- Settles O41: the register file is `loadedBlock`, I is `indexAfterBlock`, and a block that ends past 0xFFF raises before
any of it is loaded (`raises_of_access`). -/
theorem blockLoad : Obligations.BlockLoad := by
  unfold Obligations.BlockLoad
  refine ⟨fun s x hfit => ?_, fun s x hpast => raises_of_access rfl hpast, encodedBy_x (fun _ => rfl) fun _ => rfl⟩
  have hregister (k : Nibble) := loadedBlock_getElem s x k s.I.toNat
  exact ⟨_, exec_ldVxMem_fits (Nat.succ_le_succ hfit), fun k hk => (hregister k).trans (if_pos hk),
    fun k hk => (hregister k).trans (if_neg (Nat.not_le.2 hk)), toNat_indexAfterBlock hfit, rfl⟩

/-- Settles O42: the load reads at I + k (`loadedBlock_getElem`) what the store wrote there
(`Memory.read_writeBytes_registerBlock`). -/
theorem storeThenLoadRestores : Obligations.StoreThenLoadRestores := by
  unfold Obligations.StoreThenLoadRestores
  intro s t u v x hfit hstore hmem hI hload k hk
  rw [exec_ldMemVx_fits (Nat.succ_le_succ hfit)] at hstore
  cases hstore
  rw [exec_ldVxMem_fits (hI ▸ Nat.succ_le_succ hfit)] at hload
  cases hload
  calc (loadedBlock u x u.I.toNat)[k.toNat]
    _ = u.mem.read (u.I.toNat + k.toNat) := (loadedBlock_getElem u x k _).trans (if_pos hk)
    _ = (s.mem.writeBytes s.I.toNat (registerBlock s x)).read (s.I.toNat + k.toNat) :=
      congrArg₂ Memory.read hmem (congrArg (·.toNat + k.toNat) hI)
    _ = s.readV k := Memory.read_writeBytes_registerBlock _ _ s hk

/-! ### The flag storage (R218, R219) -/

theorem exec_ldRVx_slots {s : State} {x : Nibble} (h : x.toNat ≤ 7) :
    exec (.ldRVx x) s = .next { s with rpl := savedFlags s x, pc := s.pc + 2 } := if_pos h

theorem exec_ldVxR_slots {s : State} {x : Nibble} (h : x.toNat ≤ 7) :
    exec (.ldVxR x) s = .next { s with V := restoredBlock s x, pc := s.pc + 2 } := if_pos h

theorem exec_ldRVx_noSlot {s : State} {x : Nibble} (h : 7 < x.toNat) :
    exec (.ldRVx x) s = .refused (.rplSlotOutOfRange s.pc) := if_neg (Nat.not_le.2 h)

theorem exec_ldVxR_noSlot {s : State} {x : Nibble} (h : 7 < x.toNat) :
    exec (.ldVxR x) s = .refused (.rplSlotOutOfRange s.pc) := if_neg (Nat.not_le.2 h)

/-- Vk for a k up to X holds slot k, which exists. -/
theorem restoredBlock_getElem_slot (s : State) {x : Nibble} {k : Fin 8} (hk : k.val ≤ x.toNat) :
    (restoredBlock s x)[(BitVec.ofNat 4 k).toNat]'(BitVec.isLt _) = s.rpl[k] := by
  have hnat : (BitVec.ofNat 4 k).toNat = k.val := by
    rw [BitVec.toNat_ofNat]
    omega
  rw [restoredBlock_getElem]
  simp only [hnat, k.isLt, hk, if_true, dif_pos]
  rfl

/-- A register above X is as before, whether or not it has a slot. -/
theorem restoredBlock_getElem_above (s : State) {x k : Nibble} (hk : x.toNat < k.toNat) :
    (restoredBlock s x)[k.toNat]'(k.isLt) = s.readV k := by
  rw [restoredBlock_getElem]
  split
  · exact if_neg (Nat.not_le.2 hk)
  · rfl

/-- Settles O43: for X up to 7 the slots are `savedFlags` and the register file is `restoredBlock`, and above 7 both are
refused. -/
theorem flagStorage : Obligations.FlagStorage := by
  unfold Obligations.FlagStorage
  refine ⟨fun s x hx => ⟨⟨_, exec_ldRVx_slots hx, fun k => ?_, rfl⟩, _, exec_ldVxR_slots hx,
      fun k => restoredBlock_getElem_slot s, fun k => restoredBlock_getElem_above s, rfl⟩,
    fun s x hx => ⟨exec_ldRVx_noSlot hx, exec_ldVxR_noSlot hx⟩,
    encodedBy_x (fun _ => rfl) fun _ => rfl, encodedBy_x (fun _ => rfl) fun _ => rfl⟩
  have hslot := savedFlags_getElem s x k k.isLt
  exact ⟨fun hk => hslot.trans (if_pos hk), fun hk => hslot.trans (if_neg (Nat.not_le.2 hk))⟩

end Sys2Proof.Machine
end

section
/-! SUPPORT. The display (spec/44_display.md): the clear, the scroll, and the draw in terms of the pixels its set bits
touch; the sprite's rows in memory are read once as `spriteBitAt` says, for both sprite sizes. -/

namespace Sys2Proof.Machine

/-! ### Pixels of a state (R240) -/

theorem State.pixel_of_lt {s : State} {px py : Nat} (hx : px < s.mode.width) (hy : py < s.mode.height) :
    s.pixel px py = pixelAt s.fb px py := by
  simp [State.pixel, hx, hy]

/-! ### Clear and scroll (R247, R248, R251) -/

theorem exec_cls (s : State) : exec .cls s = .next { s with fb := blankGrid, pc := s.pc + 2 } := rfl

theorem exec_scd (n : Nibble) (s : State) :
    exec (.scd n) s = .next { s with fb := scrollGrid s.mode n.toNat s.fb, pc := s.pc + 2 } := rfl

/-- The words 00CN, put together again from their two fields. -/
theorem encodedBy_scd : EncodedBy 0xFFF0 0x00C0 (fun op => .scd (opN op)) := by
  refine encodedBy_of_encode (fun _ => rfl) fun op h => ?_
  obtain ⟨-, hhigh⟩ := fields_of_and_FFF0 h
  calc encode (.scd (opN op))
    _ = op.extractLsb' 4 12 ++ opN op := congrArg (· ++ opN op) hhigh.symm
    _ = op := word_eq_append_opN op

/-- Settles O45: the grid is `blankGrid`, or `scrollGrid`, whose row y is the old row y - N (`pixelAt_scrollGrid`). -/
theorem clearAndScroll : Obligations.ClearAndScroll := by
  unfold Obligations.ClearAndScroll
  refine ⟨fun s => ⟨_, exec_cls s, fun px py => ?_, rfl⟩, fun s n => ⟨_, exec_scd n s, fun px py hx hy => ?_, rfl⟩,
    rfl, encodedBy_scd⟩
  · simp [State.pixel]
  · have hold : py - n.toNat < s.mode.height := Nat.lt_of_le_of_lt (Nat.sub_le _ _) hy
    simp only [State.pixel, hx, hy, hold, pixelAt_scrollGrid s.mode _ s.fb hy, decide_true, Bool.true_and]
    by_cases hn : n.toNat ≤ py <;> simp [hn]

/-! ### The sprite in memory (R244, R245) -/

/-- The rows are those of the sprite at I: its size, and bit by bit what `spriteBitAt` reads. -/
structure IsSprite (s : State) (n : Nibble) {w : Nat} (rows : List (BitVec w)) : Prop where
  width : w = spriteWidth n
  height : rows.length = spriteHeight n
  bit : ∀ (r c : Nat) (h : r < rows.length), c < w → spriteBit rows[r] c = spriteBitAt s n r c

theorem isSprite_small (s : State) {n : Nibble} (hn : n ≠ 0) :
    IsSprite s n (smallSpriteRows s.mem s.I.toNat n.toNat) where
  width := (if_neg hn).symm
  height := by rw [length_smallSpriteRows, spriteHeight, if_neg hn]
  bit r c _ _ := by
    simp only [smallSpriteRows, Memory.getElem_readBytes, spriteBit, spriteBitAt, if_neg hn]

/-- Bit c of a word, counted from the left, is in its high byte for c below 8 and else in its low byte. -/
theorem spriteBit_wordOfBytes (hi lo : Byte) {c : Nat} (hc : c < 16) :
    spriteBit (wordOfBytes hi lo) c = if c < 8 then hi.getLsbD (7 - c) else lo.getLsbD (15 - c) := by
  rw [spriteBit, wordOfBytes, BitVec.getLsbD_append]
  by_cases hleft : c < 8
  · have hhigh : ¬ 15 - c < 8 := by omega
    have hindex : 15 - c - 8 = 7 - c := by omega
    simp [hleft, hhigh, hindex]
  · have hlow : 15 - c < 8 := by omega
    simp [hleft, hlow]

theorem isSprite_big (s : State) : IsSprite s 0 (bigSpriteRows s.mem s.I.toNat) where
  width := rfl
  height := length_bigSpriteRows _ _
  bit r c _ hc := by
    simp only [bigSpriteRows, List.getElem_map, List.getElem_range, Memory.readWord, spriteBit_wordOfBytes _ _ hc,
      spriteBitAt, if_true]

theorem spriteWidth_le (n : Nibble) : spriteWidth n ≤ 16 := by
  unfold spriteWidth
  split <;> decide

theorem spriteHeight_le (n : Nibble) : spriteHeight n ≤ 16 := by
  have hn : n.toNat < 16 := n.isLt
  unfold spriteHeight
  split <;> omega

section
variable {s : State} {n : Nibble} {w : Nat} {rows : List (BitVec w)}

theorem IsSprite.width_le (h : IsSprite s n rows) : w ≤ s.mode.width :=
  h.width ▸ (spriteWidth_le n).trans s.mode.sprite_width_le

theorem IsSprite.height_le (h : IsSprite s n rows) : rows.length ≤ s.mode.height :=
  h.height ▸ (spriteHeight_le n).trans s.mode.sprite_height_le

/-- The pixels the draw plots are the pixels its set bits fall on (R243). -/
theorem IsSprite.mem_spritePixels_iff_touches (h : IsSprite s n rows) (x y : Nibble) (px py : Nat) :
    (px, py) ∈ spritePixels s.mode (s.readV x).toNat (s.readV y).toNat rows ↔ Touches s x y n px py := by
  rw [mem_spritePixels, Touches, ← h.width, ← h.height]
  constructor
  · rintro ⟨r, c, hr, hc, hb, hat⟩
    exact ⟨r, c, hr, hc, h.bit r c hr hc ▸ hb, hat⟩
  · rintro ⟨r, c, hr, hc, hb, hat⟩
    exact ⟨r, c, hr, hc, (h.bit r c hr hc).trans hb, hat⟩

end

/-! ### What DXYN answers (R249, R310) -/

theorem exec_drw_refused {s : State} (x y : Nibble) (hmode : s.mode = .base) :
    exec (.drw x y 0) s = .refused (.spriteHeightZero s.pc) := by
  simp only [exec, execDrw, if_true, hmode]

/-- A draw that is not refused checks the sprite's bytes and draws the sprite at I. -/
theorem exec_drw_access {s : State} (x y : Nibble) {n : Nibble} (h : n ≠ 0 ∨ s.mode = .extended) :
    ∃ (w : Nat) (rows : List (BitVec w)), IsSprite s n rows ∧
      exec (.drw x y n) s = accessThen s s.I.toNat (spriteBytes n)
        (.next (drawAndFlag s (s.readV x).toNat (s.readV y).toNat rows).advance) := by
  by_cases hn : n = 0
  · subst hn
    have hmode : s.mode = .extended := h.resolve_left fun hne => hne rfl
    refine ⟨16, _, isSprite_big s, ?_⟩
    simp only [exec, execDrw, if_true, hmode, spriteBytes]
  · refine ⟨8, _, isSprite_small s hn, ?_⟩
    simp only [exec, execDrw, if_neg hn, spriteBytes]

/-! ### The effect of a draw (R243, R249) -/

/-- A touched pixel is one of the active grid. -/
theorem Touches.in_grid {s : State} {x y n : Nibble} {px py : Nat} (h : Touches s x y n px py) :
    px < s.mode.width ∧ py < s.mode.height := by
  obtain ⟨_, _, _, _, _, rfl, rfl⟩ := h
  exact ⟨Nat.mod_lt _ s.mode.width_pos, Nat.mod_lt _ s.mode.height_pos⟩

theorem flagByte_eq_one_iff (b : Bool) : flagByte b = 1 ↔ b = true := by cases b <;> decide
theorem flagByte_eq_zero_iff (b : Bool) : flagByte b = 0 ↔ b = false := by cases b <;> decide

/-- From s to t, DXYN flipped the pixels it touches and no other, VF is the collision flag, and nothing but the grid, VF
and the pc is changed. -/
structure Drawn (s t : State) (x y n : Nibble) : Prop where
  flipped : ∀ px py, Touches s x y n px py → t.pixel px py = !s.pixel px py
  kept : ∀ px py, ¬ Touches s x y n px py → t.pixel px py = s.pixel px py
  collision : t.readV 0xF = 1 ↔ ∃ px py, Touches s x y n px py ∧ s.pixel px py = true
  noCollision : t.readV 0xF = 0 ↔ ∀ px py, Touches s x y n px py → s.pixel px py = false
  others : ∀ z, z ≠ 0xF → t.readV z = s.readV z
  frame : t = { s with fb := t.fb, V := t.V, pc := s.pc + 2 }

section
variable {s : State} {n : Nibble} {w : Nat} {rows : List (BitVec w)}

theorem IsSprite.pixel_drawAndFlag (h : IsSprite s n rows) (x y : Nibble) (px py : Nat) :
    (drawAndFlag s (s.readV x).toNat (s.readV y).toNat rows).advance.pixel px py =
      (decide (px < s.mode.width) && decide (py < s.mode.height) && (pixelAt s.fb px py ^^
        decide ((px, py) ∈ spritePixels s.mode (s.readV x).toNat (s.readV y).toNat rows))) := by
  rw [← pixelAt_drawSprite s.mode s.fb _ _ rows h.width_le h.height_le]
  rfl

/-- The draw notes a collision exactly if a touched pixel was 1. -/
theorem IsSprite.collided_iff (h : IsSprite s n rows) (x y : Nibble) :
    (drawSprite s.mode s.fb (s.readV x).toNat (s.readV y).toNat rows).2 = true ↔
      ∃ px py, Touches s x y n px py ∧ s.pixel px py = true := by
  rw [drawSprite_collided s.mode s.fb _ _ rows h.width_le h.height_le]
  refine exists₂_congr fun px py => ?_
  rw [h.mem_spritePixels_iff_touches]
  refine and_congr_right fun htouch => ?_
  obtain ⟨hx, hy⟩ := htouch.in_grid
  rw [State.pixel_of_lt hx hy]

theorem IsSprite.drawn (h : IsSprite s n rows) (x y : Nibble) :
    Drawn s (drawAndFlag s (s.readV x).toNat (s.readV y).toNat rows).advance x y n := by
  have hreg (z : Nibble) := readV_drawAndFlag s (s.readV x).toNat (s.readV y).toNat rows z
  have hflag := (hreg 0xF).trans (if_pos rfl)
  refine ⟨fun px py htouch => ?_, fun px py hfree => ?_, ?_, ?_, fun z hz => (hreg z).trans (if_neg hz), rfl⟩
  · have hmem := (h.mem_spritePixels_iff_touches x y px py).2 htouch
    rw [h.pixel_drawAndFlag]
    simp [State.pixel, htouch.in_grid, hmem]
  · have hmem := mt (h.mem_spritePixels_iff_touches x y px py).1 hfree
    rw [h.pixel_drawAndFlag]
    simp [State.pixel, hmem]
  · rw [State.readV_advance, hflag, flagByte_eq_one_iff, h.collided_iff]
  · rw [State.readV_advance, hflag, flagByte_eq_zero_iff, ← Bool.not_eq_true, h.collided_iff]
    simp only [not_exists, not_and, Bool.not_eq_true]

end

theorem Drawn.mode_eq {s t : State} {x y n : Nibble} (h : Drawn s t x y n) : t.mode = s.mode := by
  rw [h.frame]

/-- An allowed draw completes. -/
theorem exec_drw_drawn {s : State} (x y : Nibble) {n : Nibble} (h : DrawAllowed s n) :
    ∃ t, exec (.drw x y n) s = .next t ∧ Drawn s t x y n := by
  obtain ⟨hform, hfit⟩ := h
  obtain ⟨w, rows, hsprite, hexec⟩ := exec_drw_access x y hform
  exact ⟨_, hexec.trans (accessThen_fits _ hfit), hsprite.drawn x y⟩

/-- Format XYN (spec/30_encoding.md R102). -/
theorem encodedBy_xyn {value : Word} {f : Nibble → Nibble → Nibble → Instr} (hwf : ∀ x y n, (f x y n).wf = true)
    (henc : ∀ x y n, encode (f x y n) = encodeXYN (opMajor value) x y n) :
    EncodedBy 0xF000 value (fun op => f (opX op) (opY op) (opN op)) := by
  refine encodedBy_of_encode (fun op => hwf _ _ _) fun op h => ?_
  rw [henc, ← opMajor_of_and_F000 h, word_eq_encodeXYN]

/-- Settles O47: the refusal, the check of the sprite's bytes (`exec_drw_access`), and the draw (`exec_drw_drawn`). -/
theorem drawFlipsExactlyTheSprite : Obligations.DrawFlipsExactlyTheSprite := by
  unfold Obligations.DrawFlipsExactlyTheSprite
  refine ⟨fun s x y n => ⟨fun hn hmode => hn ▸ exec_drw_refused x y hmode, fun hform hpast => ?_, fun hallowed => ?_⟩,
    encodedBy_xyn (fun _ _ _ => rfl) fun _ _ _ => rfl⟩
  · obtain ⟨w, rows, -, hexec⟩ := exec_drw_access x y hform
    rw [Raises, hexec, accessThen_past _ hpast, raise_eq, lowestBadAddress]
  · obtain ⟨t, hexec, hdrawn⟩ := exec_drw_drawn x y hallowed
    exact ⟨t, hexec, fun px py _ _ => ⟨hdrawn.flipped px py, hdrawn.kept px py⟩, hdrawn.collision.2,
      hdrawn.noCollision.2, hdrawn.others, hdrawn.frame⟩

/-! ### Drawing twice (R254) -/

/-- The touched pixels depend on the mode, the memory, I and the two coordinates alone. -/
theorem touches_congr {s u : State} {x y x' y' : Nibble} (n : Nibble) (hmode : u.mode = s.mode) (hmem : u.mem = s.mem)
    (hI : u.I = s.I) (hx : u.readV x' = s.readV x) (hy : u.readV y' = s.readV y) (px py : Nat) :
    Touches u x' y' n px py ↔ Touches s x y n px py := by
  simp only [Touches, spriteBitAt, hmode, hmem, hI, hx, hy]

theorem State.pixel_congr {s u : State} (hfb : u.fb = s.fb) (hmode : u.mode = s.mode) (px py : Nat) :
    u.pixel px py = s.pixel px py := by
  simp only [State.pixel, hfb, hmode]

/-- Settles O48: both draws touch the same pixels (`touches_congr`), so each of those is flipped twice, and the second
draw finds on it the opposite of what s held. -/
theorem drawTwiceRestores : Obligations.DrawTwiceRestores := by
  unfold Obligations.DrawTwiceRestores
  intro s t u x y x' y' n hallowed hexec hfb hmode hmem hI hx hy
  obtain ⟨t', hexec', hfirst⟩ := exec_drw_drawn x y hallowed
  obtain rfl : t = t' := by simpa [hexec] using hexec'
  obtain ⟨v, hexec₂, hsecond⟩ := exec_drw_drawn x' y' (show DrawAllowed u n by rwa [DrawAllowed, hmode, hI])
  have htouches := touches_congr n hmode hmem hI hx hy
  have htmode : t.mode = s.mode := hfirst.mode_eq
  have hbetween (px py : Nat) : u.pixel px py = t.pixel px py := State.pixel_congr hfb (hmode.trans htmode.symm) px py
  refine ⟨v, hexec₂, fun px py => ?_, ?_⟩
  · by_cases htouch : Touches s x y n px py
    · rw [hsecond.flipped px py ((htouches px py).2 htouch), hbetween, hfirst.flipped px py htouch, Bool.not_not]
    · rw [hsecond.kept px py (mt (htouches px py).1 htouch), hbetween, hfirst.kept px py htouch]
  · rw [hsecond.collision]
    refine exists₂_congr fun px py => ?_
    rw [htouches]
    refine and_congr_right fun htouch => ?_
    rw [hbetween, hfirst.flipped px py htouch, Bool.not_eq_true']

end Sys2Proof.Machine
end

section
/-! SUPPORT. The keypad and the timers (spec/45_keypad_timers.md): a key event and the latch, the FX0A wait from its
entry to its end, the key skips, and the countdown of the timers. -/

namespace Sys2Proof.Machine

/-! ### Key events (R272) -/

theorem getElem_setKey_keys (k j : Nibble) (p : Bool) (s : State) :
    (setKey k p s).keys[j.toNat]'(j.isLt) = if k = j then p else s.keys[j.toNat]'(j.isLt) := by
  simp [setKey, Vector.getElem_set, BitVec.toNat_inj]

/-- A press of a released key is latched, and nothing else writes the latch. -/
theorem getElem_setKey_latch (k j : Nibble) (p : Bool) (s : State) :
    (setKey k p s).latch[j.toNat]'(j.isLt) =
      (decide (k = j) && (p && !s.isPressed k) || s.latch[j.toNat]'(j.isLt)) := by
  unfold setKey
  cases hpress : p && !s.isPressed k
  · simp
  · by_cases hj : k = j <;> simp [hj, BitVec.toNat_inj]

/-- No key event clears a latch. -/
theorem setKey_latched {s : State} {k : Nibble} (j : Nibble) (p : Bool) (h : s.latch[k.toNat]'(k.isLt) = true) :
    (setKey j p s).latch[k.toNat]'(k.isLt) = true := by
  rw [getElem_setKey_latch, h, Bool.or_true]

/-- Settles O56: the level and the latch of every key after the event, the key itself and another one. -/
theorem setKeyLatchesAPress : Obligations.SetKeyLatchesAPress := by
  unfold Obligations.SetKeyLatchesAPress
  refine fun s k p => ⟨?_, ?_, fun j hj => ⟨?_, ?_⟩, rfl⟩
  · rw [getElem_setKey_keys, if_pos rfl]
  · rw [getElem_setKey_latch, decide_eq_true rfl, Bool.true_and]
    rfl
  · rw [getElem_setKey_keys, if_neg hj.symm]
  · rw [getElem_setKey_latch, decide_eq_false hj.symm, Bool.false_and, Bool.false_or]

/-! ### No key latched (R274) -/

theorem getElem_noKeys (k : Fin 16) : noKeys[k] = false := Vector.getElem_replicate k.isLt

theorem eq_noKeys_of_forall {l : Vector Bool 16} (h : ∀ k : Fin 16, l[k] = false) : l = noKeys :=
  Vector.ext fun k hk => (h ⟨k, hk⟩).trans (getElem_noKeys ⟨k, hk⟩).symm

theorem State.latch_ne_noKeys {s : State} {k : Nibble} (h : s.latch[k.toNat]'(k.isLt) = true) : s.latch ≠ noKeys := by
  intro hnone
  simp [hnone, noKeys] at h

/-! ### Who clears the latch (R274) -/

/-- Of the instructions that raise no error, FX0A alone writes the latch. -/
theorem Effect.latch_eq {s t : State} {i : Instr} (h : Effect s t i) (hi : ∀ x, i ≠ .ldVxK x) : t.latch = s.latch := by
  cases i with
  | ldVxK x => exact absurd rfl (hi x)
  | _ => exact (congrArg State.latch h.frame :)

/-- A step enters a wait or completes one, and then clears the latch; any other step leaves the latch, and its run state
stays or becomes Halted. -/
theorem step_latch_cases {s t : State} (h : step s = .next t) :
    (∃ x, s.run = .running ∧ t.run = .waitingForKey x ∧ t.latch = noKeys) ∨
    (∃ x, s.run = .waitingForKey x ∧ t.run = .running ∧ t.latch = noKeys) ∨
    (t.latch = s.latch ∧ (t.run = s.run ∨ ∃ e, t.run = .halted e)) := by
  rcases step_next h with ⟨-, rfl⟩ | ⟨x, hr, hwait⟩ | ⟨k, -, hraise⟩ | ⟨i, hr, -, -, heff⟩
  · exact .inr (.inr ⟨rfl, .inl rfl⟩)
  · rcases completeWait_next hwait with rfl | ⟨k, -, rfl⟩
    · exact .inr (.inr ⟨rfl, .inl rfl⟩)
    · exact .inr (.inl ⟨x, hr, rfl, rfl⟩)
  · cases hraise
    exact .inr (.inr ⟨rfl, .inr ⟨_, rfl⟩⟩)
  · by_cases hi : ∃ x, i = .ldVxK x
    · obtain ⟨x, rfl⟩ := hi
      subst heff
      exact .inl ⟨x, hr, rfl, rfl⟩
    · have hne : ∀ x, i ≠ .ldVxK x := not_exists.1 hi
      exact .inr (.inr ⟨heff.latch_eq hne, .inl (heff.run_eq hne)⟩)

/-- A step that changes the run state, but not to Halted, clears the latch. -/
theorem step_latch_of_run_ne {s t : State} (h : step s = .next t) (hne : t.run ≠ s.run)
    (hhalted : ∀ e, t.run ≠ .halted e) : t.latch = noKeys := by
  rcases step_latch_cases h with ⟨-, -, -, hlatch⟩ | ⟨-, -, -, hlatch⟩ | ⟨-, hsame | ⟨e, he⟩⟩
  · exact hlatch
  · exact hlatch
  · exact absurd hsame hne
  · exact absurd he (hhalted e)

theorem clearsTheLatch_of_cleared {e : Event} {s t : State} {k : Fin 16} (h : transition e s = .next t)
    (hs : s.latch[k] = true) (ht : t.latch[k] = false) : ClearsTheLatch e s t := by
  have hne : t.latch ≠ s.latch := fun heq => by simp [heq, hs] at ht
  cases e with
  | step =>
    rcases step_latch_cases h with ⟨x, hr, hrun, -⟩ | ⟨x, hr, hrun, -⟩ | ⟨hlatch, -⟩
    · exact .inl ⟨x, rfl, hr, hrun⟩
    · exact .inr (.inl ⟨x, rfl, hr, hrun⟩)
    · exact absurd hlatch hne
  | tick =>
    cases h
    exact absurd rfl hne
  | setKey j p =>
    cases h
    cases ht.symm.trans (setKey_latched (k := ⟨k⟩) j p hs)
  | load bytes inputs => exact .inr (.inr ⟨bytes, inputs, rfl⟩)

theorem latch_of_clearsTheLatch {e : Event} {s t : State} (h : transition e s = .next t)
    (hclears : ClearsTheLatch e s t) : t.latch = noKeys := by
  rcases hclears with ⟨x, rfl, hr, hrun⟩ | ⟨x, rfl, hr, hrun⟩ | ⟨bytes, inputs, rfl⟩
  · exact step_latch_of_run_ne h (by simp [hr, hrun]) (by simp [hrun])
  · exact step_latch_of_run_ne h (by simp [hr, hrun]) (by simp [hrun])
  · cases h
    rfl

/-- Settles O25: a latched key is unlatched by the three transitions alone (`clearsTheLatch_of_cleared`), and each of
them leaves the latch empty (`latch_of_clearsTheLatch`). -/
theorem latchIsClearedExactly : Obligations.LatchIsClearedExactly := by
  unfold Obligations.LatchIsClearedExactly
  refine fun e s t h => ⟨fun ⟨k, hs, ht⟩ => clearsTheLatch_of_cleared h hs ht, fun hclears k => ?_⟩
  rw [latch_of_clearsTheLatch h hclears, getElem_noKeys]

/-! ### The key skips (R280, R281) -/

theorem hexOperand_of_toNat_eq {v : Byte} {k : Nibble} (h : v.toNat = k.toNat) : hexOperand v = some k := by
  have hle : v.toNat ≤ 0xF := h ▸ Nat.le_of_lt_succ k.isLt
  have hsome := hexOperand_of_le hle
  rw [hsome, BitVec.eq_of_toNat_eq ((hexOperand_value hsome).trans h)]

theorem exec_skp_key {s : State} {x k : Nibble} (h : hexOperand (s.readV x) = some k) :
    exec (.skp x) s = .next (s.skipIf (s.isPressed k)) := by
  simp only [exec, execSkp, h]

theorem exec_sknp_key {s : State} {x k : Nibble} (h : hexOperand (s.readV x) = some k) :
    exec (.sknp x) s = .next (s.skipIf (!s.isPressed k)) := by
  simp only [exec, execSknp, h]

theorem exec_skp_noKey {s : State} {x : Nibble} (h : hexOperand (s.readV x) = none) :
    exec (.skp x) s = .refused (.keyIndexOutOfRange s.pc) := by
  simp only [exec, execSkp, h]

theorem exec_sknp_noKey {s : State} {x : Nibble} (h : hexOperand (s.readV x) = none) :
    exec (.sknp x) s = .refused (.keyIndexOutOfRange s.pc) := by
  simp only [exec, execSknp, h]

/-- Settles O49: for a VX that names a key both are a `skipIf` of its level (`skipsIf_of_test`), and for any other both
are refused. -/
theorem keySkips : Obligations.KeySkips := by
  unfold Obligations.KeySkips
  refine ⟨fun s x k hk => ?_, fun s x hlarge => ?_, encodedBy_x (fun _ => rfl) fun _ => rfl,
    encodedBy_x (fun _ => rfl) fun _ => rfl⟩
  · have hkey := hexOperand_of_toNat_eq hk
    exact ⟨skipsIf_of_test (exec_skp_key hkey) Iff.rfl,
      skipsIf_of_test (exec_sknp_key hkey) (Bool.not_eq_true' _).to_iff⟩
  · have hnone := hexOperand_of_gt hlarge
    exact ⟨exec_skp_noKey hnone, exec_sknp_noKey hnone⟩

/-! ### The wait (R282, R283) -/

theorem exec_ldVxK (x : Nibble) (s : State) :
    exec (.ldVxK x) s = .next { s with latch := noKeys, run := .waitingForKey x } := rfl

/-- Settles O50: FX0A writes the latch and the run state alone (`exec_ldVxK`). -/
theorem keyWaitBegins : Obligations.KeyWaitBegins := by
  unfold Obligations.KeyWaitBegins
  exact ⟨fun s x => ⟨_, exec_ldVxK x s, rfl, rfl, getElem_noKeys, rfl, rfl⟩, encodedBy_x (fun _ => rfl) fun _ => rfl⟩

theorem step_of_waiting_noKeys {s : State} {x : Nibble} (hr : s.run = .waitingForKey x) (h : s.latch = noKeys) :
    step s = .next s := (step_of_waiting hr).trans (completeWait_of_noKeys x h)

/-- Every key of a list is the one chosen for some number: for its index, if there are several. -/
theorem exists_chooseFrom_eq {ks : List Nibble} {k : Nibble} (h : k ∈ ks) : ∃ c, chooseFrom c ks = some k := by
  obtain ⟨c, hc, rfl⟩ := List.getElem_of_mem h
  refine ⟨c, ?_⟩
  rcases ks with _ | ⟨j, _ | ⟨l, ks⟩⟩
  · cases hc
  · simp [chooseFrom]
  · have hmod : c % (ks.length + 1 + 1) = c := Nat.mod_eq_of_lt hc
    simp [chooseFrom, hmod]

/-- The state in which a wait for VX ends that reports the key j. -/
def State.reported (s : State) (x j : Nibble) : State :=
  State.advance (State.countDraw { s.writeV x (j.setWidth 8) with latch := noKeys, run := .running })

theorem State.readV_reported (s : State) (x j z : Nibble) :
    (s.reported x j).readV z = if z = x then j.setWidth 8 else s.readV z := State.readV_writeV s x z _

theorem State.toNat_readV_reported_same (s : State) (x j : Nibble) :
    ((s.reported x j).readV x).toNat = j.toNat := by
  rw [State.readV_reported, if_pos rfl, BitVec.toNat_setWidth_of_le (by decide)]

/-- With a key latched a wait's step reports a latched key. -/
theorem step_of_waiting_latched {s : State} {x k : Nibble} (hr : s.run = .waitingForKey x)
    (hk : s.latch[k.toNat]'(k.isLt) = true) :
    ∃ j : Nibble, s.latch[j.toNat]'(j.isLt) = true ∧ step s = .next (s.reported x j) := by
  obtain ⟨j, hj, hstep⟩ := completeWait_of_latched x (State.latch_ne_noKeys hk)
  exact ⟨j, (mem_latchedKeys s j).1 hj, (step_of_waiting hr).trans hstep⟩

/-- Settles O51: an empty latch leaves the wait as it is (`step_of_waiting_noKeys`), and a latched key ends it
(`step_of_waiting_latched`); any latched key is a possible choice (`exists_chooseFrom_eq`). -/
theorem keyWaitEndsOnALatchedKey : Obligations.KeyWaitEndsOnALatchedKey := by
  unfold Obligations.KeyWaitEndsOnALatchedKey
  refine ⟨fun s x hr hnone => ⟨step_of_waiting_noKeys hr (eq_noKeys_of_forall hnone), State.status_of_waiting hr⟩,
    fun s x k hr hk => ⟨?_, exists_chooseFrom_eq ((mem_latchedKeys s k).2 hk)⟩⟩
  obtain ⟨j, hj, hstep⟩ := step_of_waiting_latched hr hk
  refine ⟨_, j, hstep, hj, s.toNat_readV_reported_same x j, fun z hz => ?_, getElem_noKeys, rfl, rfl, rfl⟩
  rw [State.readV_reported, if_neg hz]

/-- Settles O52: after the press k is the only latched key (`getElem_setKey_latch`), so it is the one reported
(`step_of_waiting_latched`). -/
theorem keyPressEndsTheWait : Obligations.KeyPressEndsTheWait := by
  unfold Obligations.KeyPressEndsTheWait
  intro s x k hr hnone (hreleased : s.isPressed k = false)
  have hlatch (j : Nibble) : (setKey k true s).latch[j.toNat]'(j.isLt) = decide (k = j) := by
    rw [getElem_setKey_latch, hreleased]
    simp [hnone, noKeys]
  obtain ⟨j, hj, hstep⟩ := step_of_waiting_latched ((setKey_run k true s).trans hr)
    ((hlatch k).trans (decide_eq_true rfl))
  obtain rfl : k = j := of_decide_eq_true ((hlatch j).symm.trans hj)
  exact ⟨_, hstep, State.toNat_readV_reported_same _ x k, rfl, rfl⟩

/-- No step, tick or release ends a wait with no key latched, latches a key, or writes the pc or a register. -/
theorem transition_of_waiting_noKeys {e : Event} {s : State} {x : Nibble} (hr : s.run = .waitingForKey x)
    (hnone : s.latch = noKeys) (he : e = .step ∨ e = .tick ∨ ∃ k, e = .setKey k false) :
    ∃ t, transition e s = .next t ∧ t.run = .waitingForKey x ∧ t.latch = noKeys ∧ t.pc = s.pc ∧ t.V = s.V := by
  rcases he with rfl | rfl | ⟨k, rfl⟩
  · exact ⟨s, step_of_waiting_noKeys hr hnone, hr, hnone, rfl, rfl⟩
  · exact ⟨tick s, rfl, hr, hnone, rfl, rfl⟩
  · exact ⟨setKey k false s, rfl, hr, hnone, rfl, rfl⟩

/-- Settles O53, by induction on the list of events: each event keeps the wait (`transition_of_waiting_noKeys`). -/
theorem waitLastsWithoutAPress : Obligations.WaitLastsWithoutAPress := by
  unfold Obligations.WaitLastsWithoutAPress
  intro events
  induction events with
  | nil => exact fun s x hr _ _ => ⟨s, rfl, hr, rfl, rfl⟩
  | cons e es ih =>
    intro s x hr hnone hevents
    obtain ⟨he, hes⟩ := List.forall_mem_cons.1 hevents
    obtain ⟨u, hu, hur, hunone, hupc, huV⟩ := transition_of_waiting_noKeys hr hnone he
    obtain ⟨t, ht, htr, htpc, htV⟩ := ih u x hur hunone hes
    refine ⟨t, ?_, htr, htpc.trans hupc, htV.trans huV⟩
    rw [runSchedule, hu]
    exact ht

/-! ### The timers (R276, R284 to R286) -/

/-- n ticks are n counts of each timer on its own, and nothing else. -/
theorem iterate_tick_eq (n : Nat) (s : State) :
    tick^[n] s = { s with DT := tickTimer^[n] s.DT, ST := tickTimer^[n] s.ST } := by
  induction n generalizing s with
  | zero => rfl
  | succ n ih => exact ih (tick s)

@[simp] theorem iterate_tickTimer_toNat (n : Nat) (t : Byte) : (tickTimer^[n] t).toNat = t.toNat - n := by
  induction n with
  | zero => rfl
  | succ n ih => rw [Function.iterate_succ_apply', tickTimer_toNat, ih, Nat.sub_sub]

/-- Settles O55: each timer counts down on its own (`iterate_tick_eq`), one at a time and not below 0
(`iterate_tickTimer_toNat`). -/
theorem ticksCountDown : Obligations.TicksCountDown := by
  unfold Obligations.TicksCountDown
  intro n s
  rw [iterate_tick_eq]
  exact ⟨iterate_tickTimer_toNat n s.DT, iterate_tickTimer_toNat n s.ST, rfl⟩

theorem exec_ldDtVx (x : Nibble) (s : State) :
    exec (.ldDtVx x) s = .next { s with DT := s.readV x, pc := s.pc + 2 } := rfl

theorem exec_ldStVx (x : Nibble) (s : State) :
    exec (.ldStVx x) s = .next { s with ST := s.readV x, pc := s.pc + 2 } := rfl

/-- As many ticks as DT says bring it to 0 (R285). -/
theorem iterate_tick_DT_eq_zero (s : State) : (tick^[s.DT.toNat] s).DT = 0 := by
  apply BitVec.eq_of_toNat_eq
  rw [iterate_tick_eq, iterate_tickTimer_toNat, Nat.sub_self]
  rfl

theorem State.isSoundActive_iff (s : State) : s.isSoundActive = true ↔ s.ST ≠ 0 := bne_iff_ne

/-- Settles O54: FX15 and FX18 set the timer that then counts down (`iterate_tick_DT_eq_zero`) or is heard
(`State.isSoundActive_iff`). -/
theorem timerInstructions : Obligations.TimerInstructions := by
  unfold Obligations.TimerInstructions
  refine ⟨fun s x => ⟨writesRegister_of_exec rfl rfl, exec_ldDtVx x s, exec_ldStVx x s, fun t h => ?_, fun t h => ?_⟩,
    encodedBy_x (fun _ => rfl) fun _ => rfl, encodedBy_x (fun _ => rfl) fun _ => rfl,
    encodedBy_x (fun _ => rfl) fun _ => rfl⟩
  · obtain rfl := Host.Outcome.next.inj ((exec_ldDtVx x s).symm.trans h)
    exact iterate_tick_DT_eq_zero { s with DT := s.readV x, pc := s.pc + 2 }
  · obtain rfl := Host.Outcome.next.inj ((exec_ldStVx x s).symm.trans h)
    exact State.isSoundActive_iff _

end Sys2Proof.Machine
end

section
/-! SUPPORT. Errors and refusals (spec/60_exceptions.md): which instruction raises which error and when, the step that
raises one, the call that overflows the stack, and the four refused cases. -/

namespace Sys2Proof.Machine

/-! ### Which instruction raises which error (R300, R301, R303, R304) -/

/-- The check of an access from I raises the error that `pastTheTop` names, and passes an access that has none. -/
theorem accessThen_eq_pastTheTop (s : State) (n : Nat) (k : StepResult) :
    accessThen s s.I.toNat n k = (pastTheTop s n).elim k (raise · s) := by
  by_cases hfit : s.I.toNat + n ≤ memSize
  · have hnone : pastTheTop s n = none := if_neg (Nat.not_lt.2 hfit)
    rw [accessThen_fits k hfit, hnone, Option.elim_none]
  · have hpast : memSize < s.I.toNat + n := Nat.not_le.1 hfit
    have hlow : (if s.I.toNat < 0x1000 then 0x1000 else s.I.toNat) = lowestBadAddress s.I.toNat := by
      unfold lowestBadAddress memSize
      split <;> omega
    have hsome : pastTheTop s n = some (.addressOutOfBounds (lowestBadAddress s.I.toNat)) := hlow ▸ if_pos hpast
    rw [accessThen_past k hpast, hsome, Option.elim_some]

/-- A draw is refused, or it is one that checks the bytes of its sprite (R249). -/
theorem drw_refused_or_checked (s : State) (n : Nibble) : n = 0 ∧ s.mode = .base ∨ n ≠ 0 ∨ s.mode = .extended := by
  cases s.mode with
  | base => simpa using eq_or_ne n 0
  | extended => exact .inr (.inr rfl)

theorem raisedError_drw {s : State} (x y : Nibble) {n : Nibble} (h : n ≠ 0 ∨ s.mode = .extended) :
    raisedError (.drw x y n) s = pastTheTop s (spriteBytes n) := by
  by_cases hn : n = 0
  · have hmode : s.mode = .extended := h.resolve_left fun hne => hne hn
    simp only [raisedError, spriteBytes, hn, hmode, if_true]
  · simp only [raisedError, spriteBytes, hn, if_false]

/-- The error `raisedError` names is raised. -/
theorem exec_of_raisedError {i : Instr} {s : State} {k : ErrorKind} (h : raisedError i s = some k) :
    exec i s = raise k s := by
  have access {n : Nat} {r : StepResult} (hk : pastTheTop s n = some k) :
      accessThen s s.I.toNat n r = raise k s := by
    rw [accessThen_eq_pastTheTop, hk, Option.elim_some]
  cases i with
  | ret =>
    obtain ⟨hempty, hk⟩ := Option.ite_none_right_eq_some.1 h
    cases hk
    exact exec_ret_empty hempty
  | call nnn =>
    obtain ⟨hfull, hk⟩ := Option.ite_none_right_eq_some.1 h
    cases hk
    exact exec_call_full nnn hfull
  | ldBVx x | ldMemVx x | ldVxMem x => exact access h
  | drw x y n =>
    rcases drw_refused_or_checked s n with ⟨rfl, hmode⟩ | hchecked
    · simp [raisedError, hmode] at h
    · obtain ⟨w, rows, -, hexec⟩ := exec_drw_access x y hchecked
      exact hexec.trans (access ((raisedError_drw x y hchecked).symm.trans h))
  | _ => cases h

/-- Where `raisedError` names none, no instruction enters Halted. -/
theorem exec_run_ne_halted {i : Instr} {s t : State} (hnone : raisedError i s = none) (hs : ∀ e, s.run ≠ .halted e)
    (h : exec i s = .next t) (e : ErrorRecord) : t.run ≠ .halted e := by
  have access {n : Nat} {u : State} (hn : pastTheTop s n = none)
      (h : accessThen s s.I.toNat n (.next u) = .next t) (hu : u.run = s.run) : t.run ≠ .halted e := by
    rw [accessThen_eq_pastTheTop, hn, Option.elim_none] at h
    cases h
    exact hu ▸ hs e
  cases i with
  | ret =>
    have hlive : s.sp ≠ 0 := by simpa [raisedError] using hnone
    have hpos : 0 < stackDepth := by decide
    by_cases hdepth : stackDepth < s.sp.toNat
    · rw [exec_ret, popThen_beyond _ hdepth] at h
      cases h
    · rw [exec_ret, popThen_live _ hlive (by omega)] at h
      cases h
      exact hs e
  | call nnn =>
    have hroom : s.sp.toNat < stackDepth := by simpa [raisedError] using hnone
    rw [exec_call_room nnn hroom] at h
    cases h
    exact hs e
  | ldBVx x | ldMemVx x | ldVxMem x => exact access hnone h rfl
  | drw x y n =>
    rcases drw_refused_or_checked s n with ⟨rfl, hmode⟩ | hchecked
    · rw [exec_drw_refused x y hmode] at h
      cases h
    · obtain ⟨w, rows, -, hexec⟩ := exec_drw_access x y hchecked
      exact access ((raisedError_drw x y hchecked).symm.trans hnone) (hexec.symm.trans h) rfl
  | skp x | sknp x | ldFVx x | ldRVx x | ldVxR x =>
    simp only [exec, execSkp, execSknp, execLdFVx, execLdRVx, execLdVxR] at h
    split at h
    · cases h
      exact hs e
    · cases h
  | low | high =>
    cases h
    exact fun hhalted => hs e ((setMode_run _ s).symm.trans hhalted)
  | ldVxK x =>
    cases h
    exact nofun
  | _ =>
    cases h
    exact hs e

/-- Settles O11: `exec_of_raisedError` where `raisedError` names an error, and `exec_run_ne_halted` where it names none. -/
theorem errorsAreRaisedExactly : Obligations.ErrorsAreRaisedExactly := by
  unfold Obligations.ErrorsAreRaisedExactly
  refine fun i s => ⟨fun k => exec_of_raisedError, fun hnone hrun t e h => exec_run_ne_halted hnone (fun e' => ?_) h e⟩
  rw [hrun]
  exact nofun

/-! ### The step that raises an error (R302) -/

theorem raise_next {k : ErrorKind} {s t : State} {e : ErrorRecord} (h : raise k s = .next t) (ht : t.run = .halted e) :
    t = { s with run := .halted e } ∧ e.pc = s.pc := by
  cases h
  cases ht
  exact ⟨rfl, rfl⟩

/-- Settles O10: of the ways a step ends (`step_cases`), the wait's never enters Halted, and an instruction enters it only
by the error it raises (`exec_run_ne_halted`), which writes the run state alone (`raise_next`). -/
theorem raisingWritesOnlyRun : Obligations.RaisingWritesOnlyRun := by
  unfold Obligations.RaisingWritesOnlyRun
  intro s t e hs h ht
  rcases step_cases s with ⟨e', hr, -⟩ | ⟨x, -, hwait⟩ | ⟨-, -, hpast⟩ | ⟨-, -, hillegal⟩ | ⟨i, -, -, -, hexec⟩
  · exact absurd hr (hs e')
  · rcases completeWait_next (hwait.symm.trans h) with rfl | ⟨k, -, rfl⟩
    · exact absurd ht (hs e)
    · cases ht
  · exact raise_next (hpast.symm.trans h) ht
  · exact raise_next (hillegal.symm.trans h) ht
  · have hi : exec i s = .next t := hexec.symm.trans h
    cases hk : raisedError i s with
    | none => exact absurd ht (exec_run_ne_halted hk hs hi e)
    | some k => exact raise_next ((exec_of_raisedError hk).symm.trans hi) ht

/-! ### Calls in a row (R303) -/

theorem callAll_cons {s u : State} {a : Word} (as : List Word) (h : exec (.call a) s = .next u) :
    callAll (a :: as) s = callAll as u := by
  rw [callAll, List.foldl_cons, andThen, h, callAll]

/-- As many calls as there is room for complete: each deepens the stack by one and leaves the run state as it is. -/
theorem callAll_room (targets : List Word) (s : State) (h : s.sp.toNat + targets.length ≤ stackDepth) :
    ∃ t, callAll targets s = .next t ∧ t.sp.toNat = s.sp.toNat + targets.length ∧ t.run = s.run := by
  induction targets generalizing s with
  | nil => exact ⟨s, rfl, rfl, rfl⟩
  | cons a as ih =>
    rw [List.length_cons] at h ⊢
    have hroom : s.sp.toNat < stackDepth := by omega
    obtain ⟨u, hcall, husp, hurun⟩ :
        ∃ u, exec (.call a) s = .next u ∧ u.sp.toNat = s.sp.toNat + 1 ∧ u.run = s.run :=
      ⟨_, exec_call_room a hroom, toNat_depth_add_one hroom, rfl⟩
    obtain ⟨t, ht, htsp, htrun⟩ := ih u (by omega)
    exact ⟨t, (callAll_cons as hcall).trans ht, by omega, htrun.trans hurun⟩

/-- Settles O36: sixteen calls fill the stack from depth 0 (`callAll_room`), and on a full stack a call raises
(`exec_call_full`). -/
theorem seventeenthCallOverflows : Obligations.SeventeenthCallOverflows := by
  unfold Obligations.SeventeenthCallOverflows
  intro s targets last hempty hlen
  obtain ⟨t, ht, hsp, hrun⟩ := callAll_room targets s (by rw [hempty, hlen]; decide)
  have hfull : t.sp = 16#8 := BitVec.eq_of_toNat_eq (by rw [hsp, hempty, hlen]; rfl)
  exact ⟨t, ht, hfull, hrun, exec_call_full last (by rw [hfull]; decide)⟩

/-! ### The refused cases (R309, R310) -/

/-- A bounds check adds no refusal to what it guards. -/
theorem accessThen_ne_refused {s : State} {a n : Nat} {k : StepResult} {r : Refusal} (hk : k ≠ .refused r) :
    accessThen s a n k ≠ .refused r := by
  unfold accessThen
  split
  · exact hk
  · exact nofun

/-- A pop adds no refusal to what it guards. -/
theorem popThen_ne_refused {s : State} {k : Word → State → StepResult} {r : Refusal} (hk : ∀ a u, k a u ≠ .refused r) :
    popThen s k ≠ .refused r := by
  unfold popThen
  split
  · exact nofun
  · split
    · exact hk _ _
    · exact nofun

/-- A push adds no refusal to what it guards. -/
theorem pushThen_ne_refused {s : State} {a : Word} {k : State → StepResult} {r : Refusal}
    (hk : ∀ u, k u ≠ .refused r) : pushThen s a k ≠ .refused r := by
  unfold pushThen
  split
  · exact hk _
  · exact nofun

/-- What is refused for one reason on a bad operand, and on no other, is refused exactly there. -/
theorem refused_iff_of_check {res : StepResult} {bad : Prop} {e r : Refusal} (hbad : bad → res = .refused e)
    (hgood : ¬ bad → res ≠ .refused r) : res = .refused r ↔ bad ∧ r = e := by
  constructor
  · intro h
    have hb : bad := by_contra fun hnot => hgood hnot h
    exact ⟨hb, Host.Outcome.refused.inj (h.symm.trans (hbad hb))⟩
  · rintro ⟨hb, rfl⟩
    exact hbad hb

section
variable {s : State} {r : Refusal} {x : Nibble}

theorem exec_drw_refused_iff {y n : Nibble} :
    exec (.drw x y n) s = .refused r ↔ (n = 0 ∧ s.mode = .base) ∧ r = .spriteHeightZero s.pc := by
  refine refused_iff_of_check ?_ fun hgood => ?_
  · rintro ⟨rfl, hmode⟩
    exact exec_drw_refused x y hmode
  · obtain ⟨w, rows, -, hexec⟩ := exec_drw_access x y ((drw_refused_or_checked s n).resolve_left hgood)
    exact hexec.trans_ne (accessThen_ne_refused nofun)

theorem exec_skp_refused_iff :
    exec (.skp x) s = .refused r ↔ 0xF < (s.readV x).toNat ∧ r = .keyIndexOutOfRange s.pc :=
  refused_iff_of_check (fun h => exec_skp_noKey (hexOperand_of_gt h)) fun h =>
    (exec_skp_key (hexOperand_of_le (Nat.not_lt.1 h))).trans_ne nofun

theorem exec_sknp_refused_iff :
    exec (.sknp x) s = .refused r ↔ 0xF < (s.readV x).toNat ∧ r = .keyIndexOutOfRange s.pc :=
  refused_iff_of_check (fun h => exec_sknp_noKey (hexOperand_of_gt h)) fun h =>
    (exec_sknp_key (hexOperand_of_le (Nat.not_lt.1 h))).trans_ne nofun

theorem exec_ldFVx_refused_iff :
    exec (.ldFVx x) s = .refused r ↔ 0xF < (s.readV x).toNat ∧ r = .fontDigitOutOfRange s.pc :=
  refused_iff_of_check (fun h => exec_ldFVx_noDigit (hexOperand_of_gt h)) fun h =>
    (exec_ldFVx_digit (hexOperand_of_le (Nat.not_lt.1 h))).trans_ne nofun

theorem exec_ldRVx_refused_iff : exec (.ldRVx x) s = .refused r ↔ 7 < x.toNat ∧ r = .rplSlotOutOfRange s.pc :=
  refused_iff_of_check exec_ldRVx_noSlot fun h => (exec_ldRVx_slots (Nat.not_lt.1 h)).trans_ne nofun

theorem exec_ldVxR_refused_iff : exec (.ldVxR x) s = .refused r ↔ 7 < x.toNat ∧ r = .rplSlotOutOfRange s.pc :=
  refused_iff_of_check exec_ldVxR_noSlot fun h => (exec_ldVxR_slots (Nat.not_lt.1 h)).trans_ne nofun

end

/-- Settles O12: each row of the table is the refusal of its instructions (`exec_drw_refused_iff` and those after it), and
the shared operations of the other instructions refuse nothing. -/
theorem refusedExactlyInTheFourCases : Obligations.RefusedExactlyInTheFourCases := by
  unfold Obligations.RefusedExactlyInTheFourCases
  refine fun i s r => ⟨fun h => ?_, ?_⟩
  · cases i with
    | drw x y n =>
      obtain ⟨⟨rfl, hmode⟩, hr⟩ := exec_drw_refused_iff.1 h
      exact .inl ⟨x, y, rfl, hmode, hr⟩
    | skp x => exact .inr (.inl ⟨x, .inl rfl, exec_skp_refused_iff.1 h⟩)
    | sknp x => exact .inr (.inl ⟨x, .inr rfl, exec_sknp_refused_iff.1 h⟩)
    | ldFVx x => exact .inr (.inr (.inl ⟨x, rfl, exec_ldFVx_refused_iff.1 h⟩))
    | ldRVx x => exact .inr (.inr (.inr ⟨x, .inl rfl, exec_ldRVx_refused_iff.1 h⟩))
    | ldVxR x => exact .inr (.inr (.inr ⟨x, .inr rfl, exec_ldVxR_refused_iff.1 h⟩))
    | ret => exact absurd ((exec_ret s).symm.trans h) (popThen_ne_refused fun _ _ => nofun)
    | call nnn => exact absurd ((exec_call nnn s).symm.trans h) (pushThen_ne_refused fun _ => nofun)
    | ldBVx x | ldMemVx x | ldVxMem x => exact absurd h (accessThen_ne_refused nofun)
    | _ => cases h
  · rintro (⟨x, y, rfl, hmode, hr⟩ | ⟨x, rfl | rfl, hr⟩ | ⟨x, rfl, hr⟩ | ⟨x, rfl | rfl, hr⟩)
    · exact exec_drw_refused_iff.2 ⟨⟨rfl, hmode⟩, hr⟩
    · exact exec_skp_refused_iff.2 hr
    · exact exec_sknp_refused_iff.2 hr
    · exact exec_ldFVx_refused_iff.2 hr
    · exact exec_ldRVx_refused_iff.2 hr
    · exact exec_ldVxR_refused_iff.2 hr

end Sys2Proof.Machine
end

section
/-! SUPPORT. The configuration, which no transition writes (spec/70_reset_and_hazards.md R338), the random byte
(spec/42_alu.md R195), and the display mode (spec/44_display.md R242). -/

namespace Sys2Proof.Machine

/-! ### The configuration (spec/70_reset_and_hazards.md R338) -/

theorem frameOf_cfg (s t : State) (i : Instr) : (frameOf s t i).cfg = s.cfg := by
  cases i <;> rfl

/-- Settles O17: the configuration is in the frame of no step (`step_frame`), no tick, no key event and no load. -/
theorem configurationIsFixed : Obligations.ConfigurationIsFixed := by
  unfold Obligations.ConfigurationIsFixed
  intro e s t h
  cases e with
  | step =>
    rcases step_frame h with ht | ⟨i, -, ht⟩
    · exact (congrArg State.cfg ht :)
    · exact (congrArg State.cfg ht).trans (frameOf_cfg s t i)
  | tick | setKey k p | load bytes inputs => cases h; rfl

/-! ### The random byte (spec/42_alu.md R195) -/

theorem exec_rnd (x : Nibble) (nn : Byte) (s : State) :
    exec (.rnd x nn) s = .next (s.writeV x (Config.rand s.draws &&& nn)).countDraw.advance := rfl

/-- Settles O31: VX alone is written (`State.readV_writeV_ne`), and one draw is counted. -/
theorem randomIsMasked : Obligations.RandomIsMasked := by
  unfold Obligations.RandomIsMasked
  refine ⟨fun s x nn => ⟨_, exec_rnd x nn s, ?_, fun z hz => ?_, rfl⟩, encodedBy_xnn (fun _ _ => rfl) fun _ _ => rfl⟩
  · rw [State.readV_advance, State.readV_countDraw, State.readV_writeV_same]
  · rw [State.readV_advance, State.readV_countDraw, State.readV_writeV_ne s _ hz]

/-! ### The display mode (spec/44_display.md R242, R252, R253) -/

theorem exec_low (s : State) : exec .low s = .next (setMode .base s).advance := rfl

theorem exec_high (s : State) : exec .high s = .next (setMode .extended s).advance := rfl

/-- Within the active grid the pixels of a cropped grid are the grid's own. -/
theorem pixelAt_cropGrid_of_lt {m : Mode} (g : Grid) {x y : Nat} (hx : x < m.width) (hy : y < m.height) :
    pixelAt (cropGrid m g) x y = pixelAt g x y := by
  simp [pixelAt_cropGrid, hx, hy]

/-- Settles O46: both set a mode and advance; a mode already active stays as it is (`setMode_same`), and a new one
brings the free grid, cut to its size (`setMode_other`, `gridWf_cropGrid`). -/
theorem settingTheMode : Obligations.SettingTheMode := by
  unfold Obligations.SettingTheMode
  refine ⟨fun i m s him => ?_, rfl, rfl⟩
  have hexec : exec i s = .next (setMode m s).advance := by
    rcases him with ⟨rfl, rfl⟩ | ⟨rfl, rfl⟩
    · exact exec_low s
    · exact exec_high s
  constructor
  · rintro rfl
    rw [hexec, setMode_same]
    rfl
  · intro hne
    rw [setMode_other hne.symm] at hexec
    refine ⟨_, hexec, rfl, gridWf_cropGrid m _, fun px py hx hy => ?_, rfl⟩
    exact (State.pixel_of_lt hx hy).trans (pixelAt_cropGrid_of_lt _ hx hy)

end Sys2Proof.Machine
end

section
/-! SUPPORT. The reset (spec/70_reset_and_hazards.md section 1): the bytes a load leaves in each part of memory, creation
as a load, and the state after reset as a creation. -/

namespace Sys2Proof.Machine

/-! ### Memory after a load (R331, R333, R334, R337) -/

theorem romFits_of_le {bytes : List Byte} (h : bytes.length ≤ maxRomSize) : romFits bytes = true := decide_eq_true h

theorem romFits_of_gt {bytes : List Byte} (h : maxRomSize < bytes.length) : romFits bytes = false :=
  decide_eq_false (Nat.not_le.2 h)

section
variable (cfg : Cfg) {bytes : List Byte} (inputs : LoadInputs)

theorem read_loadedMemory_font (bytes : List Byte) {a : Nat} (h : a < fontSize) :
    (loadedMemory cfg bytes inputs).read a = cfg.font[a] := by
  rw [read_loadedMemory, dif_pos h]

theorem read_loadedMemory_image (hfits : romFits bytes = true) {k : Nat} (h : k < bytes.length) :
    (loadedMemory cfg bytes inputs).read (programBase + k) = bytes[k] := by
  simp only [loadedMemory, hfits, if_true]
  exact Memory.read_writeBytes_inside _ _ _ _ h

/-- Outside the font and the image, or without an image that fits, a byte is `mem_init`. -/
theorem read_loadedMemory_outside {a : Nat} (hfont : fontSize ≤ a)
    (h : romFits bytes = true → a < programBase ∨ programBase + bytes.length ≤ a) :
    (loadedMemory cfg bytes inputs).read a = inputs.memInit.read a := by
  rw [read_loadedMemory, dif_neg (Nat.not_lt.2 hfont), if_neg]
  rintro ⟨hfits, hlow, hhigh⟩
  have := h hfits
  omega

end

/-! ### The load (R331 to R337) -/

/-- An image too long to fit ends the load in Halted (R337). -/
theorem load_run_of_not_fits {bytes : List Byte} (h : romFits bytes = false) (inputs : LoadInputs) (s : State) :
    (load bytes inputs s).run =
      .halted { error := .addressOutOfBounds memSize, pc := BitVec.ofNat 16 programBase } :=
  if_neg (Bool.eq_false_iff.1 h)

theorem readV_load (bytes : List Byte) (inputs : LoadInputs) (s : State) (x : Nibble) :
    (load bytes inputs s).readV x = 0 :=
  Vector.getElem_replicate x.isLt

theorem pixel_load (bytes : List Byte) (inputs : LoadInputs) (s : State) (px py : Nat) :
    (load bytes inputs s).pixel px py = false := by
  simp [State.pixel, load]

/-- Settles O57: the registers, the grid and the latch are cleared (`readV_load`, `pixel_load`, `getElem_noKeys`), and
memory is read part by part (`read_loadedMemory_font`, `read_loadedMemory_image`, `read_loadedMemory_outside`). -/
theorem loadResetsTheMachine : Obligations.LoadResetsTheMachine := by
  unfold Obligations.LoadResetsTheMachine
  rintro s t bytes inputs rfl
  refine ⟨⟨readV_load bytes inputs s, rfl, rfl, rfl, rfl, rfl, rfl, pixel_load bytes inputs s, getElem_noKeys, rfl, rfl,
    fun k => read_loadedMemory_font s.cfg inputs bytes k.isLt⟩, fun hlen => ?_, fun hlen => ?_⟩
  · have hfits := romFits_of_le hlen
    exact ⟨load_run_of_fits hfits inputs s, fun k hk => read_loadedMemory_image s.cfg inputs hfits hk,
      fun a ha hout => read_loadedMemory_outside s.cfg inputs ha fun _ => hout⟩
  · have hlong := romFits_of_gt hlen
    refine ⟨load_run_of_not_fits hlong inputs s, fun a ha => read_loadedMemory_outside s.cfg inputs ha fun hfits => ?_⟩
    exact absurd hfits (Bool.eq_false_iff.1 hlong)

/-! ### Creation (R330) -/

/-- Creation is a load of an empty image from any state of the configuration, with the keys released and the flag
storage and the counter of draws 0. -/
theorem create_eq_load (s : State) (inputs : LoadInputs) :
    create s.cfg inputs =
      { load [] inputs s with keys := noKeys, rpl := Vector.replicate 8 0, draws := 0 } := rfl

/-- Settles O58, by `create_eq_load`. -/
theorem creationIsAnEmptyLoad : Obligations.CreationIsAnEmptyLoad := by
  unfold Obligations.CreationIsAnEmptyLoad
  rintro s t inputs rfl
  rw [create_eq_load]
  exact ⟨getElem_noKeys, fun k => Vector.getElem_replicate k.isLt, rfl⟩

/-! ### The state after reset (spec/10_state.md R53) -/

/-- Reading an address that nothing has written gives the default font's byte (spec/20_memory.md R86). -/
theorem Memory.unlisted_font {a : Nat} (h : a < fontSize) : Memory.unlisted a = defaultFont[a] := dif_pos h

/-- The default font over a memory in which nothing is written is that memory: both are canonical and read alike. -/
theorem loadedMemory_default {inputs : LoadInputs} (hinit : inputs.memInit = []) :
    loadedMemory defaultCfg [] inputs = [] := by
  have hwf : inputs.memInit.wf := hinit ▸ Memory.wf_nil
  refine Memory.ext (wf_loadedMemory _ _ hwf) Memory.wf_nil fun a => ?_
  by_cases ha : a < fontSize
  · exact (read_loadedMemory_font _ _ _ ha).trans (Memory.unlisted_font ha).symm
  · rw [read_loadedMemory_outside (bytes := []) _ _ (Nat.not_lt.1 ha) fun _ => Nat.lt_or_ge a programBase, hinit]

/-- Reset is creation in the default configuration, with the inputs the model chose (log 2, log 4). -/
theorem reset_eq_create :
    State.reset = create defaultCfg { memInit := [], stackInit := Vector.replicate stackDepth 0 } := by
  rw [create, load, loadedMemory_default rfl]
  rfl

/-- Settles O59, by `reset_eq_create`; memory after reset holds nothing written, so the font is what it reads
(`Memory.unlisted_font`). -/
theorem resetStateIsCreation : Obligations.ResetStateIsCreation := by
  unfold Obligations.ResetStateIsCreation
  refine ⟨reset_eq_create, rfl, rfl, rfl, fun a ha => ?_⟩
  have hlen : a < defaultFont.toList.length := by simpa using ha
  rw [List.getD_eq_getElem _ _ hlen, Vector.getElem_toList]
  exact Memory.unlisted_font ha

/-- Settles O13: reset is a creation (`reset_eq_create`), and every load from a canonical `mem_init` gives a state that
meets the invariant (`load_inv`). -/
theorem resetMeetsTheInvariant : Obligations.ResetMeetsTheInvariant := by
  unfold Obligations.ResetMeetsTheInvariant
  rw [reset_eq_create]
  exact load_inv [] _ _ Memory.wf_nil

end Sys2Proof.Machine
end
